-- ==== Sys2Proof/Word.lean ====
section
/-! DEFINITION. The word types of PPE-16: the widths of 00_scope.md R5, each field, register and
counter an unsigned number of its stated width (R7). -/

namespace Sys2Proof

/-- A stream byte (20_memory.md R45: the stream is read 8 bits at a time). -/
abbrev Byte := BitVec 8

/-- A command word, `WORD_W` = 16 bits (00_scope.md R5). -/
abbrev Word := BitVec 16

/-- A voice number, `VIDX_W` = 3 bits, so `NV` = 8 voices (00_scope.md R5). -/
abbrev VoiceIdx := BitVec 3

/-- An attenuation level, `ATT_W` = 4 bits: 0 is loudest, 15 is silence (00_scope.md R5). -/
abbrev Level := BitVec 4

/-- A sustain gate mask, `GATE_W` = 3 bits (00_scope.md R5). -/
abbrev GateMask := BitVec 3

/-- A note number, `NOTE_W` = 7 bits (00_scope.md R5). -/
abbrev NoteNum := BitVec 7

/-- A frequency-register value, `FREQ_W` = 10 bits (00_scope.md R5). -/
abbrev FreqVal := BitVec 10

/-- A noise type, `NTYPE_W` = 3 bits, uninterpreted (00_scope.md R5, 93_implementation_defined.md U12). -/
abbrev NoiseType := BitVec 3

/-- The side bit of a noise-on: which chip's noise lane (30_encoding.md R63). -/
abbrev Side := BitVec 1

/-- Milliseconds of a delay, `DELAY_W` = 14 bits (00_scope.md R5). -/
abbrev Millis := BitVec 14

/-- A voice mask, one bit per voice, bit `i` for voice `i` (30_encoding.md R65). -/
abbrev VoiceMask := BitVec 8

/-- `ATT_SILENT`, the silence level 15 (00_scope.md R5). -/
abbrev attSilent : Level := 15

/-- `DELAY_MAX`, the longest single wait (00_scope.md R5). -/
abbrev delayMax : Nat := 16383

end Sys2Proof
end

