-- ==== Sys2Proof/Syntax.lean ====
section
/-! DEFINITION. The four commands of the wire protocol (30_encoding.md R60, R74), one constructor per
row of the opcode table. Each operand has exactly the width of its field, so no operand value is out
of range (R69). -/

namespace Sys2Proof

/-- A decoded command word (30_encoding.md R67). -/
inductive Instr where
  /-- `NOTE v, a, n`: note-on of voice `v` at attenuation `a`, note `n` (R62, 41_command_decoder.md R94). -/
  | note (v : VoiceIdx) (a : Level) (n : NoteNum)
  /-- `NOISE s, m, a, t`: noise-on of side `s`, sustain mask `m`, attenuation `a`, type `t` (R63, R95). -/
  | noise (s : Side) (m : GateMask) (a : Level) (t : NoiseType)
  /-- `DELAY d`: block the decoder for `d` millisecond strobes (R64, R96). -/
  | delay (d : Millis)
  /-- `OFF k`: release every voice whose bit of `k` is set (R65, R97). -/
  | off (k : VoiceMask)
deriving DecidableEq, Repr

end Sys2Proof
end

