-- ==== Sys2Proof/WellFormed.lean ====
section
/-! DEFINITION. What is well formed: a line of the spec's notation (30_encoding.md R71, R72), a command,
a canonical word (R70), a stream a producer may send (R73). -/

namespace Sys2Proof

/-- One line of the spec's notation (30_encoding.md R71) and its pseudo-instructions (R72). Operands
are naturals as written, so a line can be out of range. -/
inductive SourceLine where
  | note (v a n : Nat)
  | noise (s m a t : Nat)
  | delay (d : Nat)
  | off (k : Nat)
  /-- `WAIT T`, any natural `T` (R72). -/
  | wait (t : Nat)
  /-- `ALLOFF` = `OFF 0xFF` (R72). -/
  | allOff
  /-- `NOP` = `DELAY 0` (R72). -/
  | nop
deriving DecidableEq, Repr

/-- The operand ranges of 30_encoding.md R71. A line outside them is not a program in the notation. -/
def SourceLine.wellFormed : SourceLine → Bool
  | .note v a n => v ≤ 7 && a ≤ 15 && n ≤ 127
  | .noise s m a t => s ≤ 1 && m ≤ 7 && a ≤ 15 && t ≤ 7
  | .delay d => d ≤ delayMax
  | .off k => k ≤ 255
  | .wait _ => true
  | .allOff => true
  | .nop => true

/-- A command written as a line of the notation. -/
def Instr.toLine : Instr → SourceLine
  | .note v a n => .note v.toNat a.toNat n.toNat
  | .noise s m a t => .noise s.toNat m.toNat a.toNat t.toNat
  | .delay d => .delay d.toNat
  | .off k => .off k.toNat

/-- A command is well formed when its operands are in the ranges of R71. Every command is: each
field's width equals the range of what it selects (30_encoding.md R69; `Laws.instr_wellFormed`). -/
def Instr.wellFormed (i : Instr) : Bool := i.toLine.wellFormed

/-- The bits a word of each kind uses: all of them, but for the reserved bits 13..11 of `NOISE` and
13..8 of `OFF` (30_encoding.md R62 to R65, R68). -/
def usedBits (w : Word) : Word :=
  if w &&& 0xC000 = 0x4000 then 0xC7FF
  else if w &&& 0xC000 = 0xC000 then 0xC0FF
  else 0xFFFF

/-- The canonical encoding: reserved bits zero, the only one an encoder may produce (30_encoding.md
R70, R73 b). -/
def canonicalWord (w : Word) : Bool := w &&& usedBits w = w

/-- What a producer owes PPE of the bytes themselves: an even number of them and reserved bits zero
(30_encoding.md R73 a, b; high byte first, 20_memory.md R42). -/
def streamWellFormed : List Byte → Bool
  | [] => true
  | [_] => false
  | b0 :: b1 :: rest => canonicalWord (b0 ++ b1) && streamWellFormed rest

end Sys2Proof
end

