-- ==== Sys2Proof/Decode.lean ====
section
/-! DEFINITION. Decoding and encoding of command words (30_encoding.md R60 to R70), the opcode map
(R74), the assembler notation and its pseudo-instructions (R71, R72). -/

namespace Sys2Proof

/-! ## Fields and words -/

/-- `w[lo+width-1 : lo]`, a contiguous run of bits taken as an unsigned number (00_scope.md R7,
30_encoding.md R66). -/
def field (w : Word) (lo width : Nat) : BitVec width := w.extractLsb' lo width

/-- The word of two stream bytes, the first the high byte (20_memory.md R42). -/
def wordOfBytes (b0 b1 : Byte) : Word := b0 ++ b1

/-- The high byte of a word: first on the wire (20_memory.md R42). -/
def highByte (w : Word) : Byte := field w 8 8

/-- The low byte of a word: second on the wire (20_memory.md R42). -/
def lowByte (w : Word) : Byte := field w 0 8

/-- The two bytes of a word in stream order (20_memory.md R42). -/
def wordBytes (w : Word) : List Byte := [highByte w, lowByte w]

/-! ## Decode -/

/-- `Decode` of 30_encoding.md R67: total on words, tag `w[15:14]` tested in the order the rule gives;
reserved bits are not examined (R68). -/
def decodeWord (w : Word) : Instr :=
  if field w 15 1 = 0 then
    if field w 14 1 = 0 then .note (field w 11 3) (field w 7 4) (field w 0 7)
    else .noise (field w 10 1) (field w 7 3) (field w 3 4) (field w 0 3)
  else
    if field w 14 1 = 0 then .delay (field w 0 14)
    else .off (field w 0 8)

/-- Why bytes hold no command. Every word decodes (30_encoding.md R69), so the one reason is that
they end before or inside a word (20_memory.md R44). -/
inductive DecodeError where
  /-- There is no byte. -/
  | noByte
  /-- There is one byte, half a word. -/
  | halfWord
deriving DecidableEq, Repr

/-- Decode the first command of a list of bytes and give back the rest, or say why there is none. -/
def decode : List Byte → Except DecodeError (Instr × List Byte)
  | [] => .error .noByte
  | [_] => .error .halfWord
  | b0 :: b1 :: rest => .ok (decodeWord (wordOfBytes b0 b1), rest)

/-! ## Encode -/

/-- The canonical word of a command, the sums 30_encoding.md R62 to R65 give, reserved bits zero
(R70). -/
def encode : Instr → Word
  | .note v a n => BitVec.ofNat 16 (v.toNat * 2 ^ 11 + a.toNat * 2 ^ 7 + n.toNat)
  | .noise s m a t => BitVec.ofNat 16 (0x4000 + s.toNat * 2 ^ 10 + m.toNat * 2 ^ 7 + a.toNat * 2 ^ 3 + t.toNat)
  | .delay d => BitVec.ofNat 16 (0x8000 + d.toNat)
  | .off k => BitVec.ofNat 16 (0xC000 + k.toNat)

/-- The bytes of a command on the wire (30_encoding.md R60). -/
def encodeBytes (i : Instr) : List Byte := wordBytes (encode i)

/-! ## The opcode map -/

/-- One row of the opcode map (30_encoding.md R74, opcode_table.json). -/
structure OpcodeRow where
  mnemonic : String
  matchBits : Word
  maskBits : Word
deriving DecidableEq, Repr

/-- The complete opcode map (30_encoding.md R74). -/
def opcodeMap : List OpcodeRow :=
  [⟨"NOTE", 0x0000, 0xC000⟩, ⟨"NOISE", 0x4000, 0xC000⟩, ⟨"DELAY", 0x8000, 0xC000⟩, ⟨"OFF", 0xC000, 0xC000⟩]

/-- `(w AND mask) = match` (30_encoding.md R74). -/
def OpcodeRow.covers (r : OpcodeRow) (w : Word) : Bool := w &&& r.maskBits = r.matchBits

/-- The mnemonic of a command (30_encoding.md R61, R71). -/
def Instr.mnemonic : Instr → String
  | .note _ _ _ => "NOTE"
  | .noise _ _ _ _ => "NOISE"
  | .delay _ => "DELAY"
  | .off _ => "OFF"

/-! ## The notation and its pseudo-instructions -/

/-- `WAIT T`: `T div 16383` maximum delays, then the remainder if it is not 0 (30_encoding.md R72). -/
def waitWords (t : Nat) : List Instr :=
  List.replicate (t / delayMax) (.delay 16383)
    ++ (if t % delayMax = 0 then [] else [.delay (BitVec.ofNat 14 (t % delayMax))])

/-- Assemble one line: the commands it stands for, or `none` if an operand is out of range; the
notation refuses it and does not mask (30_encoding.md R71, R72). -/
def assembleLine (l : SourceLine) : Option (List Instr) :=
  if l.wellFormed then
    match l with
    | .note v a n => some [.note (BitVec.ofNat 3 v) (BitVec.ofNat 4 a) (BitVec.ofNat 7 n)]
    | .noise s m a t =>
      some [.noise (BitVec.ofNat 1 s) (BitVec.ofNat 3 m) (BitVec.ofNat 4 a) (BitVec.ofNat 3 t)]
    | .delay d => some [.delay (BitVec.ofNat 14 d)]
    | .off k => some [.off (BitVec.ofNat 8 k)]
    | .wait t => some (waitWords t)
    | .allOff => some [.off 0xFF]
    | .nop => some [.delay 0]
  else none

/-- The stream of a program: the concatenation of its words, each high byte first (30_encoding.md
R71), or `none` if a line is refused. -/
def assemble : List SourceLine → Option (List Byte)
  | [] => some []
  | l :: ls =>
    match assembleLine l, assemble ls with
    | some is, some rest => some (is.flatMap encodeBytes ++ rest)
    | _, _ => none

/-! ## The table's numbering -/

/-- The word of an instruction whose `nbits` low bits are those of `w`, the bits above zero, numbered
as opcode_table.json numbers them: bit 0 is the least significant bit of the 16-bit word. -/
def tableWord (nbits w : Nat) : Word := BitVec.ofNat 16 (w % 2 ^ nbits)

/-- The instruction the decoder reads from the table's word: its bytes are laid out high byte first
and given to `decode`. There is one length, 16 bits (30_encoding.md R60). -/
def decodeTableWord (nbits w : Nat) : Option Instr :=
  if nbits ≤ 16 then
    match decode (wordBytes (tableWord nbits w)) with
    | .ok (i, _) => some i
    | .error _ => none
  else none

end Sys2Proof
end

