-- ==== Sys2Proof/Config.lean ====
section
/-! DEFINITION. The configuration record: the parameters of 00_scope.md R6. -/

namespace Sys2Proof

/-- The parameters the source leaves open (00_scope.md R6). `FREQ_LUT` is taken as a table and not as
a formula (40_frequency_lut.md R82). -/
structure Config where
  /-- `DROP`, 0 to 15: how many levels quieter than the attack a note's release target is. -/
  drop : BitVec 4
  /-- `TONE_GATE`: the sustain gate a note-on gives its voice. -/
  toneGate : GateMask
  /-- `NOISE_LANE(0)`: the voice a noise-on of side 0 drives. -/
  noiseLane0 : VoiceIdx
  /-- `NOISE_LANE(1)`: the voice a noise-on of side 1 drives. -/
  noiseLane1 : VoiceIdx
  /-- `FREQ_LUT`: 128 entries of 10 bits (40_frequency_lut.md R80). -/
  freqLut : Vector FreqVal 128
deriving DecidableEq, Repr, Inhabited

/-- The configuration of the platform: a FREE VALUE. The source fixes none of these parameters
(00_scope.md R6, 93_implementation_defined.md U9), so nothing about this value can be proved.
DESIGN CHOICE, safe: log 4. -/
opaque Config.platform : Config

end Sys2Proof
end

