-- ==== Sys2Proof/Machine/State.lean ====
section
/-! DEFINITION. The state of PPE (10_state.md R10), the events and calls it exchanges with its
environment, the reasons a step can stop, and the state after reset (R29). -/

namespace Sys2Proof.Machine

/-- The per-voice register file's entry (10_state.md R11 to R13, R16). -/
structure Voice where
  /-- `att[v]`, the attenuation latch (R11). -/
  att : Level
  /-- `tgt[v]`, the release target (R12). -/
  tgt : Level
  /-- `gate[v]`, the sustain gate mask (R13). -/
  gate : GateMask
deriving DecidableEq, Repr

/-- The decoder state (10_state.md R19). -/
inductive DState where
  /-- `FETCH_HI`: at a word boundary. -/
  | fetchHi
  /-- `FETCH_LO`: holding the high byte. -/
  | fetchLo
  /-- `WAIT`: blocked in a delay. -/
  | wait
  /-- `HALTED`: torn down, until reset. -/
  | halted
deriving DecidableEq, Repr

/-- The halt cause (10_state.md R23); its three bits are `Cause.bits`. The three reserved codes are
never written and are not in the type (93_implementation_defined.md U4; log 13). -/
inductive Cause where
  /-- `C_NONE`: not halted. -/
  | none
  /-- `C_EOS`: the stream ended at a word boundary. -/
  | eos
  /-- `C_STOP`: the host asked for a stop. -/
  | stop
  /-- `F_TRUNC`: the stream ended inside a word. -/
  | fTrunc
  /-- `F_TAG`: unrecognised tag, unreachable in PPE-16 (60_exceptions.md R133). -/
  | fTag
deriving DecidableEq, Repr

/-- The codes of the one exception, `DecodeFault(code)` (60_exceptions.md R131). -/
inductive FaultCode where
  | trunc
  | tag
deriving DecidableEq, Repr

/-- A capability call, the only output (60_exceptions.md R146). -/
inductive Call where
  | setFrequency (v : VoiceIdx) (f : FreqVal)
  | setAttenuation (v : VoiceIdx) (a : Level)
  | setNoise (v : VoiceIdx) (t : NoiseType)
  | silenceAll
deriving DecidableEq, Repr

/-- The input events (60_exceptions.md R130). `byte` is the source's offer of its next byte, the head
of `State.stream`. -/
inductive Event where
  | reset
  | byte
  | eos
  | msTick
  | envTick
  | stop
deriving DecidableEq, Repr

/-- The events due at one instant, in the order they are served; any order may stand here
(60_exceptions.md R139; log 1). -/
abbrev Instant := List Event

/-- The whole state of PPE (10_state.md R10), the two model objects of the spec (`pos`, `out`), and
three fields of the model's own (`stream`, `schedule`, `cfg`), which hold what R30 calls parameters
of the step relation. -/
structure State where
  /-- `att[v]`, `tgt[v]`, `gate[v]` for v = 0..7 (R11 to R13). -/
  voices : Vector Voice 8
  /-- `tick_ctr` (R17). -/
  tickCtr : BitVec 3
  /-- `delay_ctr` (R18). -/
  delayCtr : Millis
  /-- `dstate` (R19). -/
  dstate : DState
  /-- `hi` (R21). -/
  hi : Byte
  /-- `tick_en` (R22). -/
  tickEn : Bool
  /-- `cause` (R23). -/
  cause : Cause
  /-- `pos`: bytes consumed since reset (R20). -/
  pos : Nat
  /-- `out`: the calls issued since reset, oldest first (R28). -/
  out : List Call
  /-- The model's own: the bytes the source still holds (R20, R30; log 2, log 5). -/
  stream : List Byte
  /-- The model's own: what the environment will make happen, instant by instant (R30; log 1, log 5). -/
  schedule : List Instant
  /-- The model's own: the configuration, which no step changes (R30, 70_reset_and_hazards.md R163; log 4). -/
  cfg : Config
deriving DecidableEq, Repr

/-- Why a step can stop. No command's meaning ever does. -/
inductive Fault where
  /-- Raised by `eventMsTick` in `WAIT` with `delay_ctr = 0`, a state no run from reset reaches (10_state.md
  R18) and for which 41_command_decoder.md R98 gives no effect. SAFE: the machine never does this
  (log 6). -/
  | delayUnderflow
deriving DecidableEq, Repr

/-- Why an instruction has no meaning. -/
inductive Refusal where
  /-- Raised by an arm of `exec` for an instruction that has no meaning yet; every instruction has
  one, so nothing raises it. SAFE. -/
  | notModelled (mnemonic : String)
deriving DecidableEq, Repr

/-- One outcome of a step of this machine. -/
abbrev Outcome := Host.Outcome State Fault Refusal

/-- The machine right after reset: 10_state.md R29, every register at the value the rule states. The
model's own fields: nothing offered, nothing scheduled (log 5), the configuration free (log 4). -/
def State.reset : State where
  voices := Vector.replicate 8 ⟨attSilent, attSilent, 0b000⟩
  tickCtr := 0
  delayCtr := 0
  dstate := .fetchHi
  hi := 0
  tickEn := true
  cause := .none
  pos := 0
  out := [.silenceAll]
  stream := []
  schedule := []
  cfg := Config.platform

end Sys2Proof.Machine
end

