-- ==== Sys2Proof/Machine/Ops.lean ====
section
/-! DEFINITION. The named operations over the registers, the port and the stream; the one exception
entry (`teardown`, 60_exceptions.md R138) and the one way out of it (`resetBlock`,
70_reset_and_hazards.md R160). -/

namespace Sys2Proof.Machine

/-! ## The register file -/

/-- Read the registers of voice `v` (10_state.md R16). -/
def State.voice (s : State) (v : VoiceIdx) : Voice := s.voices[v.toNat]'v.isLt

/-- Write the registers of voice `v`, at once (00_scope.md R8). -/
def State.setVoice (s : State) (v : VoiceIdx) (x : Voice) : State :=
  { s with voices := s.voices.set v.toNat x v.isLt }

/-- `att[v]` (10_state.md R11). -/
abbrev State.att (s : State) (v : VoiceIdx) : Level := (s.voice v).att

/-- `tgt[v]` (10_state.md R12). -/
abbrev State.tgt (s : State) (v : VoiceIdx) : Level := (s.voice v).tgt

/-- `gate[v]` (10_state.md R13). -/
abbrev State.gate (s : State) (v : VoiceIdx) : GateMask := (s.voice v).gate

/-- The voices in ascending order (00_scope.md R8). -/
def allVoices : List VoiceIdx := [0, 1, 2, 3, 4, 5, 6, 7]

/-- `for v in 0..7: body` (00_scope.md R8). -/
def State.forVoices (body : VoiceIdx → State → State) (s : State) : State :=
  allVoices.foldl (fun t v => body v t) s

/-! ## The port -/

/-- `Emit(c)`: append one call to the trace; it always succeeds (20_memory.md R47, 10_state.md R28). -/
def State.emit (s : State) (c : Call) : State := { s with out := s.out ++ [c] }

/-- What `NOTE` and `NOISE` share: one call that sets the sound, the voice's three registers, then
the attack level (41_command_decoder.md R94, R95: in this order). -/
def State.strike (s : State) (v : VoiceIdx) (sound : Call) (x : Voice) : State :=
  ((s.emit sound).setVoice v x).emit (.setAttenuation v x.att)

/-! ## The stream -/

/-- `in_ready`: 1 exactly in `FETCH_HI` and `FETCH_LO` (60_exceptions.md R147, 20_memory.md R41). -/
def State.inReady (s : State) : Bool := s.dstate = .fetchHi || s.dstate = .fetchLo

/-- `NextByte()`: enabled when the decoder is ready and the stream has a byte left; takes the byte and
moves the cursor (20_memory.md R41, 10_state.md R20). -/
def State.nextByte (s : State) : Option (Byte × State) :=
  if s.inReady then
    match s.stream with
    | [] => none
    | b :: rest => some (b, { s with stream := rest, pos := s.pos + 1 })
  else none

/-- The host's act: more bytes behind those the source still holds, more instants behind those
already scheduled (60_exceptions.md R150). -/
def State.offer (s : State) (bytes : List Byte) (instants : List Instant) : State :=
  { s with stream := s.stream ++ bytes, schedule := s.schedule ++ instants }

/-! ## Exception entry and the way out -/

/-- The latch of one voice follows the silenced device; its gate is kept (60_exceptions.md R138). -/
def silenceVoice (v : VoiceIdx) (s : State) : State :=
  s.setVoice v { s.voice v with att := attSilent, tgt := attSilent }

/-- `Teardown(c)`, run by `STOP`, `EOS` and a fault (60_exceptions.md R138): stop the tick, silence
everything, go idle, record the cause. `gate`, `tick_ctr`, `hi` and `pos` are left. -/
def State.teardown (s : State) (c : Cause) : State :=
  let stopped := { s with tickEn := false }
  let silent := (stopped.emit .silenceAll).forVoices silenceVoice
  { silent with delayCtr := 0, dstate := .halted, cause := c }

/-- The cause a fault records (60_exceptions.md R131). -/
def FaultCode.cause : FaultCode → Cause
  | .trunc => .fTrunc
  | .tag => .fTag

/-- `raise DecodeFault(code)`: the teardown with the fault's code as its cause (00_scope.md R8,
60_exceptions.md R131). -/
def State.raiseDecodeFault (s : State) (code : FaultCode) : State := s.teardown code.cause

/-- `RESET`: every register back to 10_state.md R29, one `silenceAll()` (70_reset_and_hazards.md R160,
R162). The only way out of `HALTED` (60_exceptions.md R141: there is no return from teardown). The
bytes the source holds, the schedule and the configuration are the environment's and stay. -/
def State.resetBlock (s : State) : State :=
  { State.reset with stream := s.stream, schedule := s.schedule, cfg := s.cfg }

end Sys2Proof.Machine
end

