-- ==== Sys2Proof/Machine/Delay.lean ====
section
/-! DEFINITION. The meaning of `DELAY` (41_command_decoder.md R96). -/

namespace Sys2Proof.Machine

/-- `DELAY d`: nothing for 0, else the decoder waits for `d` millisecond strobes
(41_command_decoder.md R96). -/
def execDelay (d : Millis) (s : State) : Outcome :=
  .next (if d = 0 then s else { s with delayCtr := d, dstate := .wait })

end Sys2Proof.Machine
end

