-- ==== Sys2Proof/Machine/Operands.lean ====
section
/-! DEFINITION. What an operand selects or becomes: `NOISE_LANE(s)`, `FREQ_LUT[n]`, a bit of a voice
mask, the saturated release target (30_encoding.md R66, 42_envelope_tick.md R114). -/

namespace Sys2Proof.Machine

/-- `NOISE_LANE(s)`, the voice a noise-on of side `s` drives (00_scope.md R6). -/
def noiseLane (c : Config) (s : Side) : VoiceIdx := if s = 0 then c.noiseLane0 else c.noiseLane1

/-- `FREQ_LUT[n]`; every note number is in range and the value is not changed (20_memory.md R46,
40_frequency_lut.md R80, R86). -/
def freqLut (c : Config) (n : NoteNum) : FreqVal := c.freqLut[n.toNat]'n.isLt

/-- `min(15, a + DROP)`: added without wrapping, then saturated (41_command_decoder.md R94,
42_envelope_tick.md R114 b). -/
def releaseTarget (a : Level) (drop : BitVec 4) : Level := BitVec.ofNat 4 (min 15 (a.toNat + drop.toNat))

/-- `k[v]`: bit `v` of the mask stands for voice `v` (30_encoding.md R65). -/
def maskHas (k : VoiceMask) (v : VoiceIdx) : Bool := k.getLsbD v.toNat

end Sys2Proof.Machine
end

