-- ==== Sys2Proof/Machine/Voices.lean ====
section
/-! DEFINITION. The meanings of the commands that act on voices: `NOTE`, `NOISE`, `OFF`
(41_command_decoder.md R94, R95, R97). -/

namespace Sys2Proof.Machine

/-- `NOTE v, a, n` (41_command_decoder.md R94). -/
def execNote (v : VoiceIdx) (a : Level) (n : NoteNum) (s : State) : Outcome :=
  .next (s.strike v (.setFrequency v (freqLut s.cfg n)) ⟨a, releaseTarget a s.cfg.drop, s.cfg.toneGate⟩)

/-- `NOISE side, m, a, t` (41_command_decoder.md R95). -/
def execNoise (side : Side) (m : GateMask) (a : Level) (t : NoiseType) (s : State) : Outcome :=
  .next (s.strike (noiseLane s.cfg side) (.setNoise (noiseLane s.cfg side) t) ⟨a, attSilent, m⟩)

/-- The release of one voice of a mask: the target moves to silence, nothing else
(41_command_decoder.md R97). -/
def releaseMasked (k : VoiceMask) (v : VoiceIdx) (s : State) : State :=
  if maskHas k v then s.setVoice v { s.voice v with tgt := attSilent } else s

/-- `OFF k` (41_command_decoder.md R97). -/
def execOff (k : VoiceMask) (s : State) : Outcome := .next (s.forVoices (releaseMasked k))

end Sys2Proof.Machine
end

