-- ==== Sys2Proof/Machine/Dispatch.lean ====
section
/-! DEFINITION. `Execute(c)`: the dispatch of a decoded command to its meaning (41_command_decoder.md
R93). -/

namespace Sys2Proof.Machine

def exec (i : Instr) (s : State) : Host.Outcome State Fault Refusal :=
  match i with
  | .note v a n => Sys2Proof.Machine.execNote v a n s
  | .noise side m a t => Sys2Proof.Machine.execNoise side m a t s
  | .delay d => Sys2Proof.Machine.execDelay d s
  | .off k => Sys2Proof.Machine.execOff k s

end Sys2Proof.Machine
end

