-- ==== Sys2Proof/Machine/Flags.lean ====
section
/-! DEFINITION. PPE has no condition codes (10_state.md R24). What is flag-like: the sustain gate's
predicate (42_envelope_tick.md R111), the bits of `cause` (10_state.md R23) and the status outputs
(60_exceptions.md R148). -/

namespace Sys2Proof.Machine

/-- The gate of mask `gate` lets the counter phase `ctr` through (42_envelope_tick.md R111). -/
def gateOpen (ctr : BitVec 3) (gate : GateMask) : Bool := ctr &&& gate = 0

/-- `GateOpen(v)` (42_envelope_tick.md R111). -/
def State.gateOpen (s : State) (v : VoiceIdx) : Bool := Machine.gateOpen s.tickCtr (s.gate v)

/-- The three bits of `cause` (10_state.md R23). -/
def Cause.bits : Cause → BitVec 3
  | .none => 0b000
  | .eos => 0b001
  | .stop => 0b010
  | .fTrunc => 0b100
  | .fTag => 0b101

/-- Status output `halted` (60_exceptions.md R148). -/
def State.halted (s : State) : Bool := s.dstate = .halted

/-- Status output `fault` = `cause[2]` (60_exceptions.md R148). -/
def State.fault (s : State) : Bool := s.cause.bits.getLsbD 2

/-- Status output `cause[2:0]` (60_exceptions.md R148). -/
def State.causeBits (s : State) : BitVec 3 := s.cause.bits

end Sys2Proof.Machine
end

