-- ==== Sys2Proof/Machine/Events.lean ====
section
/-! DEFINITION. The six event steps (60_exceptions.md R130) and the choice of the next event from the
schedule (R139). -/

namespace Sys2Proof.Machine

/-! ## The decoder context -/

/-- `BYTE` (41_command_decoder.md R90 to R92): the high byte is held; the low byte completes the word,
which is executed in the same step; where no byte can be taken nothing changes. -/
def eventByte (s : State) : Outcome :=
  match s.nextByte with
  | none => .next s
  | some (b, t) =>
    if s.dstate = .fetchHi then .next { t with hi := b, dstate := .fetchLo }
    else exec (decodeWord (wordOfBytes s.hi b)) { t with dstate := .fetchHi }

/-- `EOS` (60_exceptions.md R137, R132): looked at only when the stream has no byte left and only in a
fetch state; at a word boundary the normal end, inside a word the fault `F_TRUNC`. -/
def eventEos (s : State) : State :=
  if s.stream = [] then
    match s.dstate with
    | .fetchHi => s.teardown .eos
    | .fetchLo => s.raiseDecodeFault .trunc
    | .wait => s
    | .halted => s
  else s

/-- `MS_TICK` (41_command_decoder.md R98). `WAIT` with a zero counter is no state of a run
(10_state.md R18) and stops (log 6). -/
def eventMsTick (s : State) : Outcome :=
  if s.dstate = .wait then
    if s.delayCtr = 0 then .fault .delayUnderflow
    else if s.delayCtr = 1 then .next { s with delayCtr := 0, dstate := .fetchHi }
    else .next { s with delayCtr := s.delayCtr - 1 }
  else .next s

/-! ## The tick context -/

/-- One voice's share of a tick: one level up toward the target if it is louder than its target and
its gate lets this phase through, told to the device at once (42_envelope_tick.md R110, R113). -/
def tickVoice (v : VoiceIdx) (s : State) : State :=
  if s.att v < s.tgt v ∧ s.gateOpen v then
    (s.setVoice v { s.voice v with att := s.att v + 1 }).emit (.setAttenuation v (s.att v + 1))
  else s

/-- `ENV_TICK` (42_envelope_tick.md R110, R112, R115): all voices against the counter's value at the
start, then the counter moves; nothing while the tick is disabled. -/
def eventEnvTick (s : State) : State :=
  if s.tickEn then
    let ticked := s.forVoices tickVoice
    { ticked with tickCtr := ticked.tickCtr + 1 }
  else s

/-! ## The block as a whole -/

/-- `STOP` (60_exceptions.md R136). -/
def eventStop (s : State) : State := if s.dstate = .halted then s else s.teardown .stop

/-- One event, one indivisible step (00_scope.md R9, 60_exceptions.md R130). -/
def applyEvent (e : Event) (s : State) : Outcome :=
  match e with
  | .reset => .next s.resetBlock
  | .byte => eventByte s
  | .eos => .next (eventEos s)
  | .msTick => eventMsTick s
  | .envTick => .next (eventEnvTick s)
  | .stop => .next (eventStop s)

/-! ## Arbitration -/

/-- The event served next and what stays scheduled: the instants in order, the events of an instant in
the order written; `RESET` wins over the other events of its instant, which are lost
(60_exceptions.md R139). Instants with nothing due are passed over. -/
def nextEvent : List Instant → Option (Event × List Instant)
  | [] => none
  | [] :: later => nextEvent later
  | [e] :: later => some (e, later)
  | (e :: e' :: es) :: later =>
    if Event.reset ∈ e :: e' :: es then some (.reset, later) else some (e, (e' :: es) :: later)

/-! ## Placing a word for the next step -/

/-- `s` as it stands when the high byte of `w` has been taken and the source is about to offer the low
byte: the very next step takes it and executes `w` (41_command_decoder.md R91; log 7). A delay in
progress is over (10_state.md R18), and the cursor counts the high byte (R90). -/
def placeWord (s : State) (w : Word) : State :=
  { s with
    hi := highByte w
    dstate := .fetchLo
    delayCtr := 0
    pos := if s.dstate = .fetchLo then s.pos else s.pos + 1
    stream := lowByte w :: s.stream
    schedule := [.byte] :: s.schedule }

end Sys2Proof.Machine
end

