-- ==== Sys2Proof/Machine/Step.lean ====
section
/-! DEFINITION. One step of the machine: the next event of the schedule, applied whole
(00_scope.md R9). -/

namespace Sys2Proof.Machine

/-- Serve the next event. Where none is due nothing happens: every transition has an event as its
cause (00_scope.md R9; log 3). -/
def step (s : State) : Host.Outcome State Fault Refusal :=
  match nextEvent s.schedule with
  | none => .next s
  | some (e, later) => applyEvent e { s with schedule := later }

/-- `s` with the table's word where the next step fetches it (log 7). -/
def State.withFetchWord (s : State) (nbits w : Nat) : State := placeWord s (tableWord nbits w)

end Sys2Proof.Machine
end

