-- ==== Sys2Proof/Machine/FreqTable.lean ====
section
/-! DEFINITION. The formula that fills the frequency table (40_frequency_lut.md R81, R83), the reference
table (R84) and the reference configuration (00_scope.md R6). The machine takes the table from its
configuration and never reads these (R82; log 14). -/

namespace Sys2Proof.Machine

/-- The reference `FREQ_LUT` (40_frequency_lut.md R84, property P2 of R82), eight notes a row. -/
def referenceRows : Vector (Vector FreqVal 8) 16 :=
  #v[#v[956, 902, 851, 804, 758, 716, 676, 638],
     #v[602, 568, 536, 1012, 956, 902, 851, 804],
     #v[758, 716, 676, 638, 602, 568, 536, 1012],
     #v[956, 902, 851, 804, 758, 716, 676, 638],
     #v[602, 568, 536, 1012, 956, 902, 851, 804],
     #v[758, 716, 676, 638, 602, 568, 536, 1012],
     #v[956, 902, 851, 804, 758, 716, 676, 638],
     #v[602, 568, 536, 506, 478, 451, 426, 402],
     #v[379, 358, 338, 319, 301, 284, 268, 253],
     #v[239, 225, 213, 201, 190, 179, 169, 159],
     #v[150, 142, 134, 127, 119, 113, 106, 100],
     #v[95, 89, 84, 80, 75, 71, 67, 63],
     #v[60, 56, 53, 50, 47, 45, 42, 40],
     #v[38, 36, 34, 32, 30, 28, 27, 25],
     #v[24, 22, 21, 20, 19, 18, 17, 16],
     #v[15, 14, 13, 13, 12, 11, 11, 10]]

/-- The reference table as one vector: entry `n` is at row `n / 8`, column `n mod 8` (R84). -/
def referenceLut : Vector FreqVal 128 :=
  ⟨(referenceRows.toList.flatMap Vector.toList).toArray, rfl⟩

/-- `CFG_REF`, the reference column of 00_scope.md R6. The spec's own choice, used only by its vectors
(95_test_vectors.md) and by this package's tests; the machine never assumes it. -/
def referenceConfig : Config where
  drop := 3
  toneGate := 0b000
  noiseLane0 := 3
  noiseLane1 := 7
  freqLut := referenceLut

/-- The greatest natural whose 12th power is at most `q`, one bit at a time from the top. -/
def root12 (q : Nat) : Nat := go (Nat.log2 q / 12 + 1) 0
where
  go : Nat → Nat → Nat
    | 0, acc => acc
    | k + 1, acc => if (acc + 2 ^ k) ^ 12 ≤ q then go k (acc + 2 ^ k) else go k acc

/-- `Raw(m)` of 40_frequency_lut.md R81 for the clock `num / den` hertz, in exact integer arithmetic.
With `X = CLOCK_HZ / (32 * 440 * 2^((m - 69)/12))`, `y` is the integer part of `2 X`; the nearest
integer to `X` is `(y + 1) / 2`, and a tie (`2 X = y`, `y` odd) goes to the even integer (R83). -/
def rawRegister (num den m : Nat) : Nat :=
  let above := (2 * num) ^ 12 * 2 ^ 69
  let below := (32 * 440 * den) ^ 12 * 2 ^ m
  let y := root12 (above / below)
  let r := (y + 1) / 2
  if y % 2 = 1 ∧ y ^ 12 * below = above ∧ r % 2 = 1 then r - 1 else r

/-- The fold of R81: while the value does not fit in 10 bits, raise the note by an octave and
recompute, at most `fuel` times. -/
def foldRegister (num den : Nat) : Nat → Nat → Nat
  | 0, m => rawRegister num den m
  | fuel + 1, m =>
    if rawRegister num den m < 1024 then rawRegister num den m
    else foldRegister num den fuel (m + 12)

/-- The entry for note `n` that the formula of R81 gives for the clock `num / den` hertz. An octave
halves the value, so the number of bits of the unfolded value is octaves enough. -/
def formulaEntry (num den n : Nat) : Nat :=
  foldRegister num den (Nat.log2 (rawRegister num den n) + 1) n

/-- The table `t` is the one R81 computes for the clock `num / den` hertz. -/
abbrev followsFormula (num den : Nat) (t : Vector FreqVal 128) : Prop :=
  ∀ n : NoteNum, (t[n.toNat]'n.isLt).toNat = formulaEntry num den n.toNat

end Sys2Proof.Machine
end

