-- ==== Sys2Proof/Machine/Observe.lean ====
section
/-! DEFINITION. Views of the state and of the trace that are no state of their own: the port transfer
of a call (60_exceptions.md R146), the device view of a trace (10_state.md R28), the phase of a voice
(42_envelope_tick.md R116). -/

namespace Sys2Proof.Machine

/-- One transfer on the output port, `out_valid` high (60_exceptions.md R146). -/
structure Transfer where
  op : BitVec 2
  voice : BitVec 3
  data : BitVec 10
deriving DecidableEq, Repr

/-- The transfer of a call: the value zero-extended to 10 bits, voice and data zero for `silenceAll`
(60_exceptions.md R146). -/
def Call.transfer : Call → Transfer
  | .setFrequency v f => ⟨0b00, v, f⟩
  | .setAttenuation v a => ⟨0b01, v, a.zeroExtend 10⟩
  | .setNoise v t => ⟨0b10, v, t.zeroExtend 10⟩
  | .silenceAll => ⟨0b11, 0, 0⟩

/-- What one more call makes of the device attenuation of voice `v` (10_state.md R28). -/
def devAttAfter (v : VoiceIdx) (before : Option Level) : Call → Option Level
  | .setAttenuation u a => if u = v then some a else before
  | .silenceAll => some attSilent
  | .setFrequency _ _ => before
  | .setNoise _ _ => before

/-- `dev_att(out, v)`: the last attenuation the trace set for `v`; `none` where R28 calls it undefined,
a trace that never set one (10_state.md R28; log 12). -/
def devAtt (out : List Call) (v : VoiceIdx) : Option Level := out.foldl (devAttAfter v) none

/-- The phases of the per-voice state machine (42_envelope_tick.md R116). -/
inductive Phase where
  | idle
  | sounding
  | releasing
deriving DecidableEq, Repr

/-- The sub-phases of `Sounding` (42_envelope_tick.md R116). -/
inductive SubPhase where
  | decaying
  | holding
deriving DecidableEq, Repr

/-- The phase of a voice, a function of `att` and `tgt` (42_envelope_tick.md R116). -/
def Voice.phase (x : Voice) : Phase :=
  if x.att = attSilent then .idle else if x.tgt = attSilent then .releasing else .sounding

/-- The sub-phase of a sounding voice; `none` for another phase, and for `att > tgt`, which no run
reaches and R116 does not name (log 15). -/
def Voice.subPhase (x : Voice) : Option SubPhase :=
  if x.phase = .sounding then
    if x.att < x.tgt then some .decaying else if x.att = x.tgt then some .holding else none
  else none

end Sys2Proof.Machine
end

