-- ==== Sys2Proof/Safety.lean ====
section
/-! DEFINITION. The terms claims are stated in: runs, the invariants of the spec, what a command names,
the counts of open ticks and of strobes. -/

namespace Sys2Proof.Machine

/-! ## Runs -/

/-- `k` steps of the machine, stopping at the first stop. -/
def run (k : Nat) (s : State) : Outcome := Host.Core.run Sys2Proof.core k s

/-- The commands of a list one after the other, each to completion (41_command_decoder.md R93). -/
def execAll : List Instr → State → Outcome
  | [], s => .next s
  | i :: is, s =>
    match exec i s with
    | .next t => execAll is t
    | .fault r => .fault r
    | .refused r => .refused r

/-- The schedule holds no reset. -/
def noReset (schedule : List Instant) : Prop := ∀ due ∈ schedule, Event.reset ∉ due

/-- `k` envelope strobes, one an instant. -/
def envTicks (k : Nat) : List Instant := List.replicate k [Event.envTick]

/-- The events of a list, one an instant. -/
def oneByOne (events : List Event) : List Instant := events.map (fun e => [e])

/-- `k` millisecond strobes, one an instant. -/
def msTicks (k : Nat) : List Instant := List.replicate k [Event.msTick]

/-- What `k` envelope strobes and nothing else make of a state. -/
def ticksAlone (k : Nat) (s : State) : Outcome := run k { s with schedule := envTicks k }

/-- The milliseconds a command makes the decoder wait (41_command_decoder.md R96). -/
def delayOf : Instr → Millis
  | .note _ _ _ => 0
  | .noise _ _ _ _ => 0
  | .delay d => d
  | .off _ => 0

/-- For each command its two bytes, then as many millisecond strobes as its delay asks for
(41_command_decoder.md R99). -/
def commandSchedule (is : List Instr) : List Instant :=
  is.flatMap (fun i => [Event.byte] :: [Event.byte] :: msTicks (delayOf i).toNat)

/-- How many steps `commandSchedule is` takes: two bytes a word and one strobe a millisecond (R99). -/
def commandSteps (is : List Instr) : Nat := 2 * is.length + (is.map (fun i => (delayOf i).toNat)).sum

/-- The schedule of delay words one after the other (41_command_decoder.md R101). -/
def delaySchedule (ds : List Millis) : List Instant := commandSchedule (ds.map Instr.delay)

/-- How many steps `delaySchedule ds` takes. -/
def delaySteps (ds : List Millis) : Nat := commandSteps (ds.map Instr.delay)

/-! ## Invariants -/

/-- No voice is quieter than its target (10_state.md R14). -/
def LevelOrder (s : State) : Prop := ∀ v, s.att v ≤ s.tgt v

/-- The level the device was last told for each voice is the one its latch holds
(42_envelope_tick.md R119). -/
def LatchCoherent (s : State) : Prop := ∀ v, devAtt s.out v = some (s.att v)

/-- The control registers agree with one another. -/
structure ControlOk (s : State) : Prop where
  /-- `delay_ctr` is 0 exactly outside `WAIT` (10_state.md R18). -/
  delay : s.delayCtr ≠ 0 ↔ s.dstate = .wait
  /-- `pos` is even at a word boundary and in a wait (10_state.md R20). -/
  even : s.dstate = .fetchHi ∨ s.dstate = .wait → s.pos % 2 = 0
  /-- `pos` is odd inside a word (10_state.md R20). -/
  odd : s.dstate = .fetchLo → s.pos % 2 = 1
  /-- The tick is enabled exactly outside `HALTED` (10_state.md R22, 42_envelope_tick.md R115). -/
  tick : s.tickEn = false ↔ s.dstate = .halted
  /-- `cause = C_NONE` exactly outside `HALTED` (10_state.md R23). -/
  cause : s.cause = .none ↔ s.dstate ≠ .halted

/-- What a block that is over holds (60_exceptions.md R153): every latch and target silent, the tick
disabled, no delay, `silenceAll()` the last call. -/
structure HaltedSilent (s : State) : Prop where
  silent : s.dstate = .halted → ∀ v, s.att v = attSilent ∧ s.tgt v = attSilent
  still : s.dstate = .halted → s.tickEn = false ∧ s.delayCtr = 0
  last : s.dstate = .halted → s.out.getLast? = some .silenceAll

/-! ## What a command names -/

/-- The command names voice `v`: only then may it change the voice's registers
(41_command_decoder.md R102). -/
def namesVoice (c : Config) (i : Instr) (v : VoiceIdx) : Bool :=
  match i with
  | .note u _ _ => u = v
  | .noise side _ _ _ => noiseLane c side = v
  | .delay _ => false
  | .off k => maskHas k v

/-- The command writes the attenuation of voice `v`: a note-on or noise-on that names it
(10_state.md R11, R15). -/
def strikesVoice (c : Config) (i : Instr) (v : VoiceIdx) : Bool :=
  match i with
  | .note u _ _ => u = v
  | .noise side _ _ _ => noiseLane c side = v
  | .delay _ => false
  | .off _ => false

/-- The call is about voice `v` alone. -/
def concerns (v : VoiceIdx) : Call → Bool
  | .setFrequency u _ => u = v
  | .setAttenuation u _ => u = v
  | .setNoise u _ => u = v
  | .silenceAll => false

/-! ## Counts -/

/-- Among the `k` consecutive ticks that start with the counter at `ctr`, those a gate lets through
(42_envelope_tick.md R118). -/
def openTicks (k : Nat) (ctr : BitVec 3) (gate : GateMask) : Nat :=
  (List.range k).countP (fun j => gateOpen (ctr + BitVec.ofNat 3 j) gate)

/-- The number of set bits of a gate mask (42_envelope_tick.md R111). -/
def popcount (gate : GateMask) : Nat := (List.range 3).countP (fun i => gate.getLsbD i)

end Sys2Proof.Machine
end

