-- ==== Sys2Proof/Certificates/Slice0/Obligations.lean ====
section
/-! DEFINITION. The statements for the provers. In the docstrings, R<n> is a rule of spec/, D<n> a decision
of spec/92_eei_decisions.md, log <n> an entry of notes/assumptions. A rule that the spec marks
[derived: ...] is an inference of the spec's own; the statements about one are marked 'derived' in
OBLIGATIONS.json. -/

open Sys2Proof Sys2Proof.Machine

/-! ## Words -/

/-- 30_encoding.md section 6 and 95_test_vectors.md section 2.1: words written out from the encodings
decode to the commands they stand for, a family each. -/
def Obligations.DecodeOfWrittenOutWords : Prop :=
  decodeWord 0b00_010_0100_1000101 = .note 2 4 69 ∧
  decodeWord 0b01_000_1_011_0010_101 = .noise 1 3 2 5 ∧
  decodeWord 0b01_111_0_111_1101_010 = .noise 0 7 13 2 ∧
  decodeWord 0b10_00000111110100 = .delay 500 ∧
  decodeWord 0b11_000000_00000101 = .off 0x05 ∧
  decodeWord 0b11_100011_10100101 = .off 0xA5

/-- R67: every word decodes, by its tag, to the command whose fields are the word's runs of bits, here
written as divisions and remainders of the word's value. -/
def Obligations.DecodeReadsTagAndFields : Prop :=
  ∀ w : Word,
    (w.toNat < 0x4000 → decodeWord w =
      .note (BitVec.ofNat 3 (w.toNat / 2 ^ 11)) (BitVec.ofNat 4 (w.toNat / 2 ^ 7)) (BitVec.ofNat 7 w.toNat)) ∧
    (0x4000 ≤ w.toNat → w.toNat < 0x8000 → decodeWord w =
      .noise (BitVec.ofNat 1 (w.toNat / 2 ^ 10)) (BitVec.ofNat 3 (w.toNat / 2 ^ 7))
        (BitVec.ofNat 4 (w.toNat / 2 ^ 3)) (BitVec.ofNat 3 w.toNat)) ∧
    (0x8000 ≤ w.toNat → w.toNat < 0xC000 → decodeWord w = .delay (BitVec.ofNat 14 w.toNat)) ∧
    (0xC000 ≤ w.toNat → decodeWord w = .off (BitVec.ofNat 8 w.toNat))

/-- R62 to R65: in the encoded word of a command the tag, each field and the reserved bits stand at the
positions the formats give, the reserved bits zero; the word meets its format's match and mask, and its
value is the sum the format gives. -/
def Obligations.EncodePlacesTheFields : Prop :=
  (∀ v a n, (encode (.note v a n)).extractLsb' 14 2 = 0b00#2 ∧
    (encode (.note v a n)).extractLsb' 11 3 = v ∧ (encode (.note v a n)).extractLsb' 7 4 = a ∧
    (encode (.note v a n)).extractLsb' 0 7 = n ∧ encode (.note v a n) &&& 0xC000 = 0x0000 ∧
    (encode (.note v a n)).toNat = v.toNat * 2 ^ 11 + a.toNat * 2 ^ 7 + n.toNat) ∧
  (∀ s m a t, (encode (.noise s m a t)).extractLsb' 14 2 = 0b01#2 ∧
    (encode (.noise s m a t)).extractLsb' 11 3 = 0#3 ∧ (encode (.noise s m a t)).extractLsb' 10 1 = s ∧
    (encode (.noise s m a t)).extractLsb' 7 3 = m ∧ (encode (.noise s m a t)).extractLsb' 3 4 = a ∧
    (encode (.noise s m a t)).extractLsb' 0 3 = t ∧ encode (.noise s m a t) &&& 0xC000 = 0x4000 ∧
    (encode (.noise s m a t)).toNat =
      0x4000 + s.toNat * 2 ^ 10 + m.toNat * 2 ^ 7 + a.toNat * 2 ^ 3 + t.toNat) ∧
  (∀ d, (encode (.delay d)).extractLsb' 14 2 = 0b10#2 ∧ (encode (.delay d)).extractLsb' 0 14 = d ∧
    encode (.delay d) &&& 0xC000 = 0x8000 ∧ (encode (.delay d)).toNat = 0x8000 + d.toNat) ∧
  (∀ k, (encode (.off k)).extractLsb' 14 2 = 0b11#2 ∧ (encode (.off k)).extractLsb' 8 6 = 0#6 ∧
    (encode (.off k)).extractLsb' 0 8 = k ∧ encode (.off k) &&& 0xC000 = 0xC000 ∧
    (encode (.off k)).toNat = 0xC000 + k.toNat)

/-- Decode and encode agree: the bytes of any command, with anything behind them, decode to that command
and leave what is behind (R42, R60 to R67; 95_test_vectors.md section 1.3, round trip). -/
def Obligations.DecodeAfterEncode : Prop :=
  ∀ (i : Instr) (rest : List Byte), decode (encodeBytes i ++ rest) = .ok (i, rest)

/-- The other direction: encoding what a word decodes to gives the word with its reserved bits cleared, and
two words are the same command exactly when they agree but for their reserved bits (R68, R70: 8 encodings
of every `NOISE`, 64 of every `OFF`, one of each other command). -/
def Obligations.EncodeAfterDecodeIsCanonical : Prop :=
  (∀ w : Word, encode (decodeWord w) = w &&& usedBits w) ∧
  (∀ w x : Word, decodeWord w = decodeWord x ↔ w &&& usedBits w = x &&& usedBits x)

/-- R68: a `NOISE` or `OFF` word with any value in its reserved bits (`x` changes any of them) is the
same command as the word with zeros there, and an encoder writes them as 0. -/
def Obligations.ReservedBitsAreIgnored : Prop :=
  (∀ w x : Word, w &&& 0xC000 = 0x4000 → decodeWord (w ^^^ (x &&& 0x3800)) = decodeWord w) ∧
  (∀ w x : Word, w &&& 0xC000 = 0xC000 → decodeWord (w ^^^ (x &&& 0x3F00)) = decodeWord w) ∧
  (∀ s m a t, encode (.noise s m a t) &&& 0x3800 = 0) ∧
  (∀ k, encode (.off k) &&& 0x3F00 = 0)

/-- R74, R69: exactly one row of the opcode map covers each word, the row of the command it decodes to. -/
def Obligations.OpcodeRowsPartitionTheWords : Prop :=
  ∀ w : Word, (opcodeMap.filter (fun r => r.covers w)).map OpcodeRow.mnemonic = [(decodeWord w).mnemonic]

/-- R71: a line whose operands are in range assembles to the two bytes of its word, high byte first; a
line with an operand out of range is refused. -/
def Obligations.NotationAssemblesInRangeLines : Prop :=
  (∀ v a n : Nat, assemble [.note v a n] =
    if v ≤ 7 ∧ a ≤ 15 ∧ n ≤ 127 then
      some [BitVec.ofNat 8 ((v * 2048 + a * 128 + n) / 256), BitVec.ofNat 8 (v * 2048 + a * 128 + n)]
    else none) ∧
  (∀ s m a t : Nat, assemble [.noise s m a t] =
    if s ≤ 1 ∧ m ≤ 7 ∧ a ≤ 15 ∧ t ≤ 7 then
      some [BitVec.ofNat 8 ((0x4000 + s * 1024 + m * 128 + a * 8 + t) / 256),
        BitVec.ofNat 8 (s * 1024 + m * 128 + a * 8 + t)]
    else none) ∧
  (∀ d : Nat, assemble [.delay d] =
    if d ≤ 16383 then some [BitVec.ofNat 8 ((0x8000 + d) / 256), BitVec.ofNat 8 d] else none) ∧
  (∀ k : Nat, assemble [.off k] = if k ≤ 255 then some [0xC0, BitVec.ofNat 8 k] else none)

/-- R72: `WAIT T` stands for delays that are not 0, all but the last the longest, which sum to `T`;
`ALLOFF` is `OFF 0xFF`, `NOP` is `DELAY 0`. -/
def Obligations.PseudoInstructionsExpand : Prop :=
  (∀ T : Nat, ∃ ds : List Millis, assembleLine (.wait T) = some (ds.map Instr.delay) ∧
    (ds.map BitVec.toNat).sum = T ∧ (∀ d ∈ ds, d ≠ 0) ∧ (∀ d ∈ ds.dropLast, d = 16383)) ∧
  assembleLine .allOff = some [.off 0xFF] ∧ assembleLine .nop = some [.delay 0]

/-- R73 a, b: what the notation assembles is a stream a producer may send: an even number of bytes, every
word canonical. -/
def Obligations.AssembledStreamIsWellFormed : Prop :=
  ∀ (lines : List SourceLine) (bytes : List Byte), assemble lines = some bytes →
    streamWellFormed bytes = true ∧ bytes.length % 2 = 0

/-! ## Fetch -/

/-- R90: a byte taken at a word boundary is held as the high byte; nothing else happens. -/
def Obligations.HighByteIsHeld : Prop :=
  ∀ (s : State) (later : List Instant) (b : Byte) (rest : List Byte),
    nextEvent s.schedule = some (.byte, later) → s.dstate = .fetchHi → s.stream = b :: rest →
    step s = .next { s with schedule := later, stream := rest, pos := s.pos + 1, hi := b, dstate := .fetchLo }

/-- R91: when the held high byte and the stream decode to the (well-formed) command `i`, the step that
takes the low byte moves the cursor, returns the decoder to the word boundary and executes `i`. -/
def Obligations.StepRunsTheDecodedCommand : Prop :=
  ∀ (s : State) (later : List Instant) (i : Instr) (rest : List Byte),
    nextEvent s.schedule = some (.byte, later) → s.dstate = .fetchLo →
    decode (s.hi :: s.stream) = .ok (i, rest) →
    i.wellFormed = true ∧
    step s = exec i { s with schedule := later, stream := rest, pos := s.pos + 1, dstate := .fetchHi }

/-- R92, R41: in `WAIT` and `HALTED`, and where the stream has no byte left, a byte event takes nothing: the
bytes stay with the source and nothing changes. That the offer itself is used up is the model's choice
(log 2). -/
def Obligations.OfferedByteIsNotTakenWhileNotReady : Prop :=
  ∀ (s : State) (later : List Instant), nextEvent s.schedule = some (.byte, later) →
    s.dstate = .wait ∨ s.dstate = .halted ∨ s.stream = [] → step s = .next { s with schedule := later }

/-- R41, R20, R52: a step leaves the stream and the cursor alone, or it is a reset (cursor 0; that the bytes
the source holds stay is the model's choice, log 5), or the decoder was ready and the step consumed exactly the first byte and moved the cursor by one. -/
def Obligations.StreamIsConsumedInOrder : Prop :=
  ∀ s t : State, step s = .next t →
    (t.stream = s.stream ∧ t.pos = s.pos) ∨
    (t.stream = s.stream ∧ t.pos = 0 ∧ ∃ later, nextEvent s.schedule = some (.reset, later)) ∨
    (s.inReady = true ∧ ∃ b, s.stream = b :: t.stream ∧ t.pos = s.pos + 1)

/-! ## The commands -/

/-- R94: `NOTE v, a, n` completes in every state; the three registers of voice `v` are written (the target
saturates at 15), `setFrequency` and then `setAttenuation` are issued, and nothing else changes. -/
def Obligations.NoteStrikesItsVoice : Prop :=
  ∀ (s : State) (v : VoiceIdx) (a : Level) (n : NoteNum), ∃ t, exec (.note v a n) s = .next t ∧
    t.att v = a ∧ (t.tgt v).toNat = min 15 (a.toNat + s.cfg.drop.toNat) ∧ t.gate v = s.cfg.toneGate ∧
    (∀ u, u ≠ v → t.voice u = s.voice u) ∧
    t.out = s.out ++ [.setFrequency v (s.cfg.freqLut[n.toNat]'n.isLt), .setAttenuation v a] ∧
    t = { s with voices := t.voices, out := t.out }

/-- R95: `NOISE s, m, a, t` completes in every state; the registers of the side's lane are written, the
target silence, the gate the mask; `setNoise` and then `setAttenuation` are issued; nothing else changes. -/
def Obligations.NoiseStrikesItsLane : Prop :=
  ∀ (s : State) (side : Side) (m : GateMask) (a : Level) (ty : NoiseType) (v : VoiceIdx),
    v = (if side = 0 then s.cfg.noiseLane0 else s.cfg.noiseLane1) →
    ∃ t, exec (.noise side m a ty) s = .next t ∧
      t.voice v = ⟨a, 15, m⟩ ∧ (∀ u, u ≠ v → t.voice u = s.voice u) ∧
      t.out = s.out ++ [.setNoise v ty, .setAttenuation v a] ∧
      t = { s with voices := t.voices, out := t.out }

/-- R96: `DELAY 0` does nothing; `DELAY d` with `d > 0` loads the counter and blocks the decoder; no
other state changes and no call is issued. After it the decoder is not ready while fewer than `d` millisecond
strobes have passed, and is ready after the `d`-th, however many envelope strobes stand between them. (With
offered bytes between them too: `WaitOutlastsItsInterruptions`.) -/
def Obligations.DelayLoadsTheCounter : Prop :=
  ∀ (s : State) (d : Millis),
    (d = 0 → exec (.delay d) s = .next s) ∧
    (0 < d → exec (.delay d) s = .next { s with delayCtr := d, dstate := .wait }) ∧
    (∀ (es : List Event) (later : List Instant), 0 < d → (∀ e ∈ es, e = .msTick ∨ e = .envTick) →
      es.count .msTick ≤ d.toNat → s.schedule = oneByOne es ++ later →
      ∃ t u, exec (.delay d) s = .next t ∧ run es.length t = .next u ∧
        (u.inReady = true ↔ es.count .msTick = d.toNat) ∧ u.stream = s.stream ∧ u.pos = s.pos)

/-- R97: `OFF k` completes in every state; the target of every voice whose bit is set becomes silence;
attenuations, gates, the other targets, the trace and all other state are unchanged. -/
def Obligations.OffReleasesTheMask : Prop :=
  ∀ (s : State) (k : VoiceMask), ∃ t, exec (.off k) s = .next t ∧
    (∀ i, t.tgt i = if k.getLsbD i.toNat then 15 else s.tgt i) ∧
    (∀ i, t.att i = s.att i ∧ t.gate i = s.gate i) ∧
    t = { s with voices := t.voices }

/-- R144, R24, R20, R21, R96, R97, R99, R100: what no command can reach: the tick counter, the tick enable, the cause, the
held byte, the cursor, the stream, the schedule, the configuration; only `DELAY` touches the decoder
state and the delay counter, and it touches no voice; `DELAY` and `OFF` issue no call. -/
def Obligations.CommandsReachOnlyTheirState : Prop :=
  ∀ (i : Instr) (s t : State), exec i s = .next t →
    t.tickCtr = s.tickCtr ∧ t.tickEn = s.tickEn ∧ t.cause = s.cause ∧ t.hi = s.hi ∧ t.pos = s.pos ∧
    t.stream = s.stream ∧ t.schedule = s.schedule ∧ t.cfg = s.cfg ∧
    ((∀ d, i ≠ .delay d) → t.dstate = s.dstate ∧ t.delayCtr = s.delayCtr) ∧
    (∀ d, i = .delay d → t.voices = s.voices ∧ t.out = s.out) ∧
    (∀ k, i = .off k → t.out = s.out)

/-- R102: a command that does not name voice `v` leaves its registers and adds no call about it; and what
a command leaves in a voice it does name depends on no other voice. -/
def Obligations.VoicesAreIndependent : Prop :=
  (∀ (i : Instr) (s t : State) (v : VoiceIdx), namesVoice s.cfg i v = false → exec i s = .next t →
    t.voice v = s.voice v ∧ t.out.filter (concerns v) = s.out.filter (concerns v)) ∧
  (∀ (i : Instr) (s s' t t' : State) (v : VoiceIdx), s.cfg = s'.cfg → s.voice v = s'.voice v →
    exec i s = .next t → exec i s' = .next t' → t.voice v = t'.voice v)

/-- R93, R99, R49 (a), (b): the bytes of any list of commands, those of each followed by the strobes its
delay asks for, take effect as the commands one after the other: the same registers and the same calls
in the same order, with the bytes consumed, the cursor moved by two a word, every wait over and the
decoder at a word boundary. -/
def Obligations.StreamRunsItsCommandsInOrder : Prop :=
  ∀ (is : List Instr) (s : State) (rest : List Byte) (later : List Instant), s.dstate = .fetchHi →
    s.stream = is.flatMap encodeBytes ++ rest → s.schedule = commandSchedule is ++ later →
    ∃ t u, run (commandSteps is) s = .next t ∧ execAll is s = .next u ∧
      t = { u with
        stream := rest, schedule := later, pos := s.pos + 2 * is.length, hi := t.hi, dstate := .fetchHi,
        delayCtr := if ∀ i ∈ is, delayOf i = 0 then s.delayCtr else 0 }

/-! ## The millisecond strobe and delays -/

/-- R98: `MS_TICK` counts the delay down by one and ends the wait at 0; outside `WAIT` it does nothing.
In a wait with `d` left, `m < d` strobes leave the decoder waiting with `d - m` left, and exactly the `d`-th
returns it to `FETCH_HI`; the envelope strobes among them do what they do alone and nothing else changes.
(With offered bytes among them too: `WaitOutlastsItsInterruptions`.) -/
def Obligations.MsTickCountsTheDelayDown : Prop :=
  (∀ (s : State) (later : List Instant), nextEvent s.schedule = some (.msTick, later) →
    (s.dstate = .wait → s.delayCtr ≠ 0 → ∃ t, step s = .next t ∧
      t.delayCtr.toNat = s.delayCtr.toNat - 1 ∧
      t.dstate = (if s.delayCtr.toNat - 1 = 0 then .fetchHi else .wait) ∧
      t = { s with schedule := later, delayCtr := t.delayCtr, dstate := t.dstate }) ∧
    (s.dstate ≠ .wait → step s = .next { s with schedule := later })) ∧
  (∀ (s : State) (es : List Event) (later : List Instant), s.dstate = .wait → s.delayCtr ≠ 0 →
    (∀ e ∈ es, e = .msTick ∨ e = .envTick) → es.count .msTick ≤ s.delayCtr.toNat →
    s.schedule = oneByOne es ++ later →
    ∃ t u, run es.length s = .next t ∧ ticksAlone (es.count .envTick) s = .next u ∧
      t.delayCtr.toNat = s.delayCtr.toNat - es.count .msTick ∧
      t.dstate = (if es.count .msTick = s.delayCtr.toNat then .fetchHi else .wait) ∧
      t = { u with schedule := later, delayCtr := t.delayCtr, dstate := t.dstate })

/-- The model's choice (log 6): `MS_TICK` in `WAIT` with a zero counter, for which R98 gives no effect
("delay_ctr >= 1 in WAIT, no underflow") and which no run reaches, stops by name. -/
def Obligations.ZeroCounterInWaitStops : Prop :=
  ∀ (s : State) (later : List Instant), nextEvent s.schedule = some (.msTick, later) →
    s.dstate = .wait → s.delayCtr = 0 → step s = .fault .delayUnderflow

/-- R96, R98, R92, R110: a wait counts its millisecond strobes alone. In a wait, and after `DELAY d`, any events
but a reset or a stop may stand between the strobes: offered bytes are not taken, an end of stream is
not looked at, and the envelope strobes do what they do alone. Short of the last strobe the decoder still
waits; the strobe that completes the count ends the wait. That an offer or an end of stream met in `WAIT` is
used up is the model's choice (log 2). -/
def Obligations.WaitOutlastsItsInterruptions : Prop :=
  ∀ (s : State) (es : List Event) (later : List Instant), (∀ e ∈ es, e ≠ .reset ∧ e ≠ .stop) →
    (s.dstate = .wait → es.count .msTick < s.delayCtr.toNat → s.schedule = oneByOne es ++ later →
      ∃ t u, run es.length s = .next t ∧ ticksAlone (es.count .envTick) s = .next u ∧
        t.dstate = .wait ∧ t.stream = s.stream ∧ t.pos = s.pos ∧
        t.delayCtr.toNat = s.delayCtr.toNat - es.count .msTick ∧
        t = { u with schedule := later, delayCtr := t.delayCtr }) ∧
    (s.dstate = .wait → es.count .msTick + 1 = s.delayCtr.toNat →
      s.schedule = oneByOne (es ++ [.msTick]) ++ later →
      ∃ t u, run (es.length + 1) s = .next t ∧ ticksAlone (es.count .envTick) s = .next u ∧
        t.stream = s.stream ∧ t.pos = s.pos ∧
        t = { u with schedule := later, delayCtr := 0, dstate := .fetchHi }) ∧
    (∀ d : Millis, es.count .msTick < d.toNat → s.schedule = oneByOne es ++ later →
      ∃ t u, exec (.delay d) s = .next t ∧ run es.length t = .next u ∧
        u.inReady = false ∧ u.stream = s.stream ∧ u.pos = s.pos) ∧
    (∀ d : Millis, es.count .msTick + 1 = d.toNat → s.schedule = oneByOne (es ++ [.msTick]) ++ later →
      ∃ t u, exec (.delay d) s = .next t ∧ run (es.length + 1) t = .next u ∧
        u.inReady = true ∧ u.stream = s.stream ∧ u.pos = s.pos)

/-- R101, delay additivity: delay words with nothing between them return the decoder to `FETCH_HI` after
exactly the sum of their fields in strobes, however the sum is split; no voice changes and no call is
issued; and after fewer strobes of the last word the decoder is still waiting. -/
def Obligations.DelayChunksAddUp : Prop :=
  (∀ (ds : List Millis) (s : State) (rest : List Byte) (later : List Instant),
    s.dstate = .fetchHi → s.delayCtr = 0 →
    s.stream = (ds.map Instr.delay).flatMap encodeBytes ++ rest → s.schedule = delaySchedule ds ++ later →
    ∃ t, run (delaySteps ds) s = .next t ∧
      t = { s with stream := rest, schedule := later, pos := s.pos + 2 * ds.length, hi := t.hi }) ∧
  (∀ (ds : List Millis) (d : Millis) (m : Nat) (s : State) (rest : List Byte) (later : List Instant),
    s.dstate = .fetchHi → s.delayCtr = 0 → m < d.toNat →
    s.stream = ((ds ++ [d]).map Instr.delay).flatMap encodeBytes ++ rest →
    s.schedule = delaySchedule (ds ++ [d]) ++ later →
    ∃ t, run (delaySteps ds + 2 + m) s = .next t ∧ t.dstate = .wait ∧ t.delayCtr.toNat = d.toNat - m)

/-! ## The envelope tick -/

/-- R111: the open phases of every gate mask, phase 0 always among them, `2^(3 - popcount)` in number. -/
def Obligations.GateOpensItsPhases : Prop :=
  ([0, 1, 2, 3, 4, 5, 6, 7] : List GateMask).map
      (fun g => ([0, 1, 2, 3, 4, 5, 6, 7] : List (BitVec 3)).filter (fun c => gateOpen c g)) =
    [[0, 1, 2, 3, 4, 5, 6, 7], [0, 2, 4, 6], [0, 1, 4, 5], [0, 4], [0, 1, 2, 3], [0, 2], [0, 1], [0]] ∧
  (∀ (c : BitVec 3) (g : GateMask), gateOpen c g = true ↔ c &&& g = 0) ∧
  (∀ g : GateMask, gateOpen 0 g = true ∧ openTicks 8 0 g = 2 ^ (3 - popcount g))

/-- R110, R115: with the tick enabled every voice louder than its target whose gate is open at the counter's
starting value moves up one level and is told to the device, in ascending order; then the counter moves,
wrapping from 7 to 0; targets, gates and all other state are unchanged. With the tick disabled nothing
happens. -/
def Obligations.EnvTickRaisesTheOpenVoices : Prop :=
  ∀ (s : State) (later : List Instant), nextEvent s.schedule = some (.envTick, later) →
    (s.tickEn = true → ∃ t, step s = .next t ∧
      (∀ v, t.voice v = if s.att v < s.tgt v ∧ s.tickCtr &&& s.gate v = 0
        then ⟨s.att v + 1, s.tgt v, s.gate v⟩ else s.voice v) ∧
      t.out = s.out ++ (([0, 1, 2, 3, 4, 5, 6, 7] : List VoiceIdx).filter
        (fun v => s.att v < s.tgt v ∧ s.tickCtr &&& s.gate v = 0)).map
          (fun v => .setAttenuation v (s.att v + 1)) ∧
      t.tickCtr.toNat = (s.tickCtr.toNat + 1) % 8 ∧
      t = { s with schedule := later, voices := t.voices, out := t.out, tickCtr := t.tickCtr }) ∧
    (s.tickEn = false → step s = .next { s with schedule := later })

/-- R112: the counter counts enabled ticks modulo 8, from whatever value it has (0 at reset), and no step
but an enabled tick or a reset writes it. -/
def Obligations.TickCounterCountsEnabledTicks : Prop :=
  (∀ (j : Nat) (s : State) (later : List Instant), s.tickEn = true → s.schedule = envTicks j ++ later →
    ∃ t, run j s = .next t ∧ t.tickCtr.toNat = (s.tickCtr.toNat + j) % 8) ∧
  State.reset.tickCtr = 0 ∧
  (∀ s t : State, step s = .next t → t.tickCtr ≠ s.tickCtr →
    ∃ e later, nextEvent s.schedule = some (e, later) ∧ (e = .reset ∨ e = .envTick ∧ s.tickEn = true))

/-- R118: in a run of `k` enabled ticks a voice below its target rises by exactly the number of open ticks
among them, and stops at the target; any other voice keeps its level; targets and gates stay. -/
def Obligations.EnvelopeFollowsOpenTicks : Prop :=
  ∀ (k : Nat) (s : State) (later : List Instant), s.tickEn = true → s.schedule = envTicks k ++ later →
    ∃ t, run k s = .next t ∧
      (∀ v, (t.att v).toNat = if s.att v < s.tgt v
        then min (s.tgt v).toNat ((s.att v).toNat + openTicks k s.tickCtr (s.gate v)) else (s.att v).toNat) ∧
      (∀ v, t.tgt v = s.tgt v ∧ t.gate v = s.gate v) ∧
      t = { s with schedule := later, voices := t.voices, out := t.out, tickCtr := t.tickCtr }

/-- R118: any 8 consecutive enabled ticks, whatever the phase they start in and however many ticks went
before, hold exactly `2^(3 - popcount)` open ones. -/
def Obligations.EightTicksHoldTheirOpenPhases : Prop :=
  ∀ (k : Nat) (c : BitVec 3) (g : GateMask),
    openTicks (k + 8) c g = openTicks k c g + 2 ^ (3 - popcount g)

/-- 95_test_vectors.md part 4 item 10 (R118): a released voice that no command touches reaches silence
within `8 * (15 - att)` enabled ticks, whatever its gate. -/
def Obligations.ReleasedVoiceFallsSilent : Prop :=
  ∀ (k : Nat) (s : State) (later : List Instant) (v : VoiceIdx), s.tickEn = true → s.tgt v = 15 →
    8 * (15 - (s.att v).toNat) ≤ k → s.schedule = envTicks k ++ later →
    ∃ t, run k s = .next t ∧ t.att v = 15

/-! ## The phases of a voice -/

/-- R117, R116: what `NOTE`, `NOISE` and `OFF` make of the phase of the voices they name. -/
def Obligations.CommandsEnterTheirPhase : Prop :=
  (∀ (s : State) (v : VoiceIdx) (a : Level) (n : NoteNum), ∃ t, exec (.note v a n) s = .next t ∧
    (a = 15 → (t.voice v).phase = .idle) ∧
    (a < 15 → a.toNat + s.cfg.drop.toNat < 15 → (t.voice v).phase = .sounding ∧
      (t.voice v).subPhase = some (if s.cfg.drop = 0 then .holding else .decaying)) ∧
    (a < 15 → 15 ≤ a.toNat + s.cfg.drop.toNat → (t.voice v).phase = .releasing)) ∧
  (∀ (s : State) (side : Side) (m : GateMask) (a : Level) (ty : NoiseType),
    ∃ t, exec (.noise side m a ty) s = .next t ∧
      (t.voice (noiseLane s.cfg side)).phase = if a = 15 then .idle else .releasing) ∧
  (∀ (s : State) (k : VoiceMask) (v : VoiceIdx), ∃ t, exec (.off k) s = .next t ∧
    (t.voice v).phase = if maskHas k v ∧ (s.voice v).phase = .sounding then .releasing else (s.voice v).phase)

/-- R117, R116: what an enabled tick makes of the phase of a voice, row by row of the table; `o` is whether
the gate is open. -/
def Obligations.TickMovesThePhase : Prop :=
  ∀ (s : State) (later : List Instant) (v : VoiceIdx), nextEvent s.schedule = some (.envTick, later) →
    s.tickEn = true → ∃ t, step s = .next t ∧
      (gateOpen s.tickCtr (s.gate v) = false → t.voice v = s.voice v) ∧
      ((s.voice v).phase = .idle → t.voice v = s.voice v) ∧
      ((s.voice v).subPhase = some .holding → t.voice v = s.voice v) ∧
      (gateOpen s.tickCtr (s.gate v) = true → (s.voice v).subPhase = some .decaying →
        (t.voice v).subPhase =
          some (if (s.att v).toNat + 1 = (s.tgt v).toNat then .holding else .decaying)) ∧
      (gateOpen s.tickCtr (s.gate v) = true → (s.voice v).phase = .releasing →
        (t.voice v).phase = if (s.att v).toNat + 1 = 15 then .idle else .releasing)

/-! ## Teardown, stop, end of stream, reset, arbitration -/

/-- R138: teardown disables the tick, issues one `silenceAll()`, silences every latch and target, clears the
delay, halts and records the cause; gates and all other state are left. Until a reset that call stays the
last one, whatever events follow. -/
def Obligations.TeardownSilencesAndHalts : Prop :=
  ∀ (s : State) (c : Cause),
    (∀ v, (s.teardown c).voice v = ⟨15, 15, s.gate v⟩) ∧
    s.teardown c = { s with
      voices := (s.teardown c).voices, tickEn := false, out := s.out ++ [.silenceAll], delayCtr := 0,
      dstate := .halted, cause := c } ∧
    (noReset s.schedule → ∀ k : Nat, ∃ t, run k (s.teardown c) = .next t ∧ t.out = s.out ++ [.silenceAll])

/-- R136: `STOP` tears down with `C_STOP` from every state but `HALTED`, where it does nothing. -/
def Obligations.StopTearsDownOnce : Prop :=
  ∀ (s : State) (later : List Instant), nextEvent s.schedule = some (.stop, later) →
    (s.dstate ≠ .halted → step s = .next (State.teardown { s with schedule := later } .stop)) ∧
    (s.dstate = .halted → step s = .next { s with schedule := later })

/-- R137: with no byte left, `EOS` at a word boundary tears down with `C_EOS`, inside a word raises
`F_TRUNC`, in `WAIT` and `HALTED` does nothing; with a byte left the event is not enabled. That such an event
is used up is the model's choice (log 2). -/
def Obligations.EndOfStreamEndsTheRun : Prop :=
  ∀ (s : State) (later : List Instant), nextEvent s.schedule = some (.eos, later) →
    (s.stream = [] → s.dstate = .fetchHi → step s = .next (State.teardown { s with schedule := later } .eos)) ∧
    (s.stream = [] → s.dstate = .fetchLo →
      step s = .next (State.teardown { s with schedule := later } .fTrunc)) ∧
    (s.stream ≠ [] ∨ s.dstate = .wait ∨ s.dstate = .halted → step s = .next { s with schedule := later })

/-- R160: a reset, from any state, gives every register its reset value and a trace of one `silenceAll()`. -/
def Obligations.ResetRestoresEveryRegister : Prop :=
  ∀ (s : State) (later : List Instant), nextEvent s.schedule = some (.reset, later) →
    ∃ t, step s = .next t ∧ (∀ v, t.voice v = ⟨15, 15, 0⟩) ∧ t.tickCtr = 0 ∧ t.delayCtr = 0 ∧
      t.dstate = .fetchHi ∧ t.hi = 0 ∧ t.tickEn = true ∧ t.cause = .none ∧ t.pos = 0 ∧ t.out = [.silenceAll]

/-- R139: `RESET` wins its instant and the other events due then are lost; without a reset the events of an
instant are served one a step in the order that stands in the schedule, which may be any (log 1). -/
def Obligations.ResetWinsItsInstant : Prop :=
  ∀ (s : State) (later : List Instant),
    (∀ due : Instant, s.schedule = due :: later → Event.reset ∈ due →
      step s = .next (State.resetBlock { s with schedule := later })) ∧
    (∀ (e e' : Event) (es : List Event), s.schedule = (e :: e' :: es) :: later → Event.reset ∉ e :: e' :: es →
      step s = applyEvent e { s with schedule := (e' :: es) :: later })

/-- R139 a, 95_test_vectors.md section 2.9: a tick and the low byte of an `OFF` due at one instant, in both
orders: the release starts one tick apart. -/
def Obligations.BothOrdersOfOneInstant : Prop :=
  ∀ s : State, s.voice 2 = ⟨7, 7, 0⟩ → (∀ v, v ≠ 2 → s.att v = s.tgt v) → s.tickEn = true → s.tickCtr = 5 →
    s.dstate = .fetchLo → s.hi = 0xC0 → s.stream = [0x04] →
    (s.schedule = [[.envTick, .byte]] → ∃ t, run 2 s = .next t ∧ t.voice 2 = ⟨7, 15, 0⟩ ∧
      t.tickCtr = 6 ∧ t.out = s.out) ∧
    (s.schedule = [[.byte, .envTick]] → ∃ t, run 2 s = .next t ∧ t.voice 2 = ⟨8, 15, 0⟩ ∧
      t.tickCtr = 6 ∧ t.out = s.out ++ [.setAttenuation 2 8])

/-- The model's reading of R9 (log 3): where no event is due nothing happens. -/
def Obligations.NoEventNoChange : Prop :=
  ∀ s : State, nextEvent s.schedule = none → step s = .next s

/-- R141: `HALTED` is left only by `RESET`. -/
def Obligations.HaltedIsLeftOnlyByReset : Prop :=
  ∀ s t : State, s.dstate = .halted → step s = .next t → t.dstate ≠ .halted →
    ∃ later, nextEvent s.schedule = some (.reset, later) ∧ t = State.resetBlock { s with schedule := later }

/-- R142, 95_test_vectors.md part 4 item 6: a halted block with its tick stopped takes any events but a
reset, for any number of steps, and nothing of it changes: no register, no call, no byte taken. That such events are
used up is the model's choice (log 2), and a step with none due changes nothing (log 3). -/
def Obligations.HaltedStaysUntilReset : Prop :=
  ∀ (k : Nat) (s : State), s.dstate = .halted → s.tickEn = false → noReset s.schedule →
    ∃ t, run k s = .next t ∧ t = { s with schedule := t.schedule }

/-! ## Reset state and invariants -/

/-- R29: the state after reset. -/
def Obligations.ResetStateValues : Prop :=
  (∀ v, State.reset.att v = 15 ∧ State.reset.tgt v = 15 ∧ State.reset.gate v = 0) ∧
  State.reset.tickCtr = 0 ∧ State.reset.delayCtr = 0 ∧ State.reset.dstate = .fetchHi ∧ State.reset.hi = 0 ∧
  State.reset.tickEn = true ∧ State.reset.cause = .none ∧ State.reset.pos = 0 ∧
  State.reset.out = [.silenceAll]

/-- The reset state meets the four invariants below. -/
def Obligations.ResetMeetsTheInvariants : Prop :=
  LevelOrder State.reset ∧ LatchCoherent State.reset ∧ ControlOk State.reset ∧ HaltedSilent State.reset

/-- R14: every step, from every state in which no voice is quieter than its target, leaves none so. -/
def Obligations.LevelOrderIsKept : Prop :=
  ∀ s t : State, LevelOrder s → step s = .next t → LevelOrder t

/-- R119: every step keeps the device's last told level of each voice equal to its latch. -/
def Obligations.LatchCoherenceIsKept : Prop :=
  ∀ s t : State, LatchCoherent s → step s = .next t → LatchCoherent t

/-- R18, R20, R22, R23: every step keeps the control registers in agreement: the delay counter with the
wait, the cursor's parity with the framing, the tick enable and the cause with `HALTED`. -/
def Obligations.ControlStateIsKept : Prop :=
  ∀ s t : State, ControlOk s → step s = .next t → ControlOk t

/-- R153: every step keeps a block that is over silent, still, and its trace ending with `silenceAll()`. -/
def Obligations.HaltedSilenceIsKept : Prop :=
  ∀ s t : State, HaltedSilent s → step s = .next t → HaltedSilent t

/-- R51, R114 d: from a state whose control registers agree every step completes: no underflow, no stop. -/
def Obligations.EveryStepCompletes : Prop :=
  ∀ s : State, ControlOk s → ∃ t, step s = .next t

/-! ## Rules of the whole machine -/

/-- R47, R55, R110: outside a reset a step only adds calls to the trace, at most eight. -/
def Obligations.TraceOnlyGrows : Prop :=
  ∀ s t : State, step s = .next t → (∀ later, nextEvent s.schedule ≠ some (.reset, later)) →
    ∃ calls, t.out = s.out ++ calls ∧ calls.length ≤ 8

/-- R163: no step changes the configuration. -/
def Obligations.ConfigurationNeverChanges : Prop :=
  ∀ s t : State, step s = .next t → t.cfg = s.cfg

/-- R11, R120, 95_test_vectors.md part 4 items 7 and 8: a level changes only by a reset, by a teardown, by a
tick (up by one, toward the target) or by a `NOTE` or `NOISE` that addresses the voice. -/
def Obligations.LevelsMoveOnlyByTheirEvents : Prop :=
  ∀ (s t : State) (v : VoiceIdx), step s = .next t → t.att v ≠ s.att v →
    ∃ e later, nextEvent s.schedule = some (e, later) ∧
      (e = .reset ∨ ((e = .stop ∨ e = .eos) ∧ t.dstate = .halted ∧ t.att v = 15) ∨
        (e = .envTick ∧ s.tickEn = true ∧ s.att v < s.tgt v ∧ (t.att v).toNat = (s.att v).toNat + 1) ∨
        (e = .byte ∧ s.dstate = .fetchLo ∧ ∃ b rest, s.stream = b :: rest ∧
          strikesVoice s.cfg (decodeWord (s.hi ++ b)) v = true))

/-- R22: the tick is disabled only by a teardown (the block is then halted, `silenceAll()` its last call)
and enabled only by a reset. -/
def Obligations.OnlyTeardownStopsTheTick : Prop :=
  ∀ s t : State, step s = .next t →
    (s.tickEn = true → t.tickEn = false → t.dstate = .halted ∧ t.out.getLast? = some .silenceAll) ∧
    (s.tickEn = false → t.tickEn = true → ∃ later, nextEvent s.schedule = some (.reset, later))

/-- R133: no step records `F_TAG`. -/
def Obligations.TagFaultIsNeverRaised : Prop :=
  ∀ s t : State, step s = .next t → s.cause ≠ .fTag → t.cause ≠ .fTag

/-! ## Outputs and the frequency table -/

/-- R148 (with the codes of R23 and the ready line of R147): the status outputs. -/
def Obligations.StatusOutputs : Prop :=
  ∀ s : State, (s.halted = true ↔ s.dstate = .halted) ∧ s.fault = s.causeBits.getLsbD 2 ∧
    s.causeBits = (match s.cause with
      | .none => 0b000 | .eos => 0b001 | .stop => 0b010 | .fTrunc => 0b100 | .fTag => 0b101) ∧
    (s.fault = true ↔ s.cause = .fTrunc ∨ s.cause = .fTag) ∧
    (s.inReady = true ↔ s.dstate = .fetchHi ∨ s.dstate = .fetchLo)

/-- R146, the port transfer of each call: operation code, voice, value zero-extended to 10 bits. -/
def Obligations.PortTransfers : Prop :=
  ∀ (v : VoiceIdx) (f : FreqVal) (a : Level) (ty : NoiseType),
    (Call.setFrequency v f).transfer = ⟨0, v, f⟩ ∧
    (Call.setAttenuation v a).transfer = ⟨1, v, BitVec.ofNat 10 a.toNat⟩ ∧
    (Call.setNoise v ty).transfer = ⟨2, v, BitVec.ofNat 10 ty.toNat⟩ ∧
    Call.silenceAll.transfer = ⟨3, 0, 0⟩

/-- R84, R81: the reference table is the formula's for a clock of 4000000 hertz, on all 128 notes (P2). -/
def Obligations.ReferenceTableFollowsTheFormula : Prop := followsFormula 4000000 1 referenceLut

/-- R85: of the reference table: a note up to 46 reads as the note an octave up; from 47 on the entries
never increase; the smallest is 10, the largest 1012, at notes 11, 23, 35 and 47 only. -/
def Obligations.ReferenceTableProperties : Prop :=
  let entry := fun n : Nat => (referenceLut.toList.map BitVec.toNat).getD n 0
  (∀ n < 47, entry n = entry (n + 12)) ∧ (∀ n < 127, 47 ≤ n → entry (n + 1) ≤ entry n) ∧
  (∀ n < 128, 10 ≤ entry n ∧ entry n ≤ 1012) ∧ (∀ n < 128, entry n = 10 ↔ n = 127) ∧
  (∀ n < 128, entry n = 1012 ↔ n = 11 ∨ n = 23 ∨ n = 35 ∨ n = 47)

/-- R82 P1, R81: whatever the clock, the formula's entry fits in the 10-bit register, for every note. -/
def Obligations.FormulaEntryFitsTheRegister : Prop :=
  ∀ num den n : Nat, formulaEntry num den n < 1024
end

