-- ==== Sys2Proof/Laws/State.lean ====
section
/-! SUPPORT. One lemma per field per named update of the state, true by `rfl`, and the laws of the
register file: a read after a write. -/

namespace Sys2Proof.Machine

/-! ## Writing the registers of one voice -/

@[simp] theorem setVoice_tickCtr (s : State) (v x) : (s.setVoice v x).tickCtr = s.tickCtr := rfl
@[simp] theorem setVoice_delayCtr (s : State) (v x) : (s.setVoice v x).delayCtr = s.delayCtr := rfl
@[simp] theorem setVoice_dstate (s : State) (v x) : (s.setVoice v x).dstate = s.dstate := rfl
@[simp] theorem setVoice_hi (s : State) (v x) : (s.setVoice v x).hi = s.hi := rfl
@[simp] theorem setVoice_tickEn (s : State) (v x) : (s.setVoice v x).tickEn = s.tickEn := rfl
@[simp] theorem setVoice_cause (s : State) (v x) : (s.setVoice v x).cause = s.cause := rfl
@[simp] theorem setVoice_pos (s : State) (v x) : (s.setVoice v x).pos = s.pos := rfl
@[simp] theorem setVoice_out (s : State) (v x) : (s.setVoice v x).out = s.out := rfl
@[simp] theorem setVoice_stream (s : State) (v x) : (s.setVoice v x).stream = s.stream := rfl
@[simp] theorem setVoice_schedule (s : State) (v x) : (s.setVoice v x).schedule = s.schedule := rfl
@[simp] theorem setVoice_cfg (s : State) (v x) : (s.setVoice v x).cfg = s.cfg := rfl

/-! ## Issuing a call -/

@[simp] theorem emit_voices (s : State) (c) : (s.emit c).voices = s.voices := rfl
@[simp] theorem emit_voice (s : State) (c v) : (s.emit c).voice v = s.voice v := rfl
@[simp] theorem emit_tickCtr (s : State) (c) : (s.emit c).tickCtr = s.tickCtr := rfl
@[simp] theorem emit_delayCtr (s : State) (c) : (s.emit c).delayCtr = s.delayCtr := rfl
@[simp] theorem emit_dstate (s : State) (c) : (s.emit c).dstate = s.dstate := rfl
@[simp] theorem emit_hi (s : State) (c) : (s.emit c).hi = s.hi := rfl
@[simp] theorem emit_tickEn (s : State) (c) : (s.emit c).tickEn = s.tickEn := rfl
@[simp] theorem emit_cause (s : State) (c) : (s.emit c).cause = s.cause := rfl
@[simp] theorem emit_pos (s : State) (c) : (s.emit c).pos = s.pos := rfl
@[simp] theorem emit_out (s : State) (c) : (s.emit c).out = s.out ++ [c] := rfl
@[simp] theorem emit_stream (s : State) (c) : (s.emit c).stream = s.stream := rfl
@[simp] theorem emit_schedule (s : State) (c) : (s.emit c).schedule = s.schedule := rfl
@[simp] theorem emit_cfg (s : State) (c) : (s.emit c).cfg = s.cfg := rfl

/-! ## The register file -/

/-- A read of a voice's registers sees nothing but the register file. -/
theorem voice_of_voices {s t : State} (h : s.voices = t.voices) (v : VoiceIdx) : s.voice v = t.voice v := by
  simp only [State.voice, h]

/-- A read after a write: the written voice reads as written, every other voice as before. -/
theorem voice_setVoice (s : State) (u v : VoiceIdx) (x : Voice) :
    (s.setVoice u x).voice v = if v = u then x else s.voice v := by
  simp only [State.voice, State.setVoice, Vector.getElem_set]
  by_cases h : v = u
  · simp [h]
  · have : u.toNat ≠ v.toNat := fun e => h (BitVec.eq_of_toNat_eq e.symm)
    simp [h, this]

@[simp] theorem voice_setVoice_same (s : State) (v : VoiceIdx) (x : Voice) : (s.setVoice v x).voice v = x := by
  simp [voice_setVoice]

theorem voice_setVoice_other (s : State) {u v : VoiceIdx} (x : Voice) (h : v ≠ u) :
    (s.setVoice u x).voice v = s.voice v := by
  simp [voice_setVoice, h]

/-- Two register files that read alike are equal. -/
theorem voices_ext {s t : State} (h : ∀ v, s.voice v = t.voice v) : s.voices = t.voices := by
  apply Vector.ext
  intro i hi
  have := h (BitVec.ofNat 3 i)
  simpa [State.voice, Nat.mod_eq_of_lt hi] using this

end Sys2Proof.Machine
end

