-- ==== Sys2Proof/Laws/Ops.lean ====
section
/-! SUPPORT. What each shared operation does, said once: the loop over the voices, a strike, a released
or ticked voice, the reading of a byte, the device view. -/

namespace Sys2Proof.Machine

/-! ## The loop over the voices -/

/-- The loop is its eight bodies in ascending order. -/
theorem forVoices_eq (f : VoiceIdx → State → State) (s : State) :
    s.forVoices f = f 7 (f 6 (f 5 (f 4 (f 3 (f 2 (f 1 (f 0 s))))))) := rfl

/-- What every body keeps, the loop keeps. -/
theorem forVoices_keeps (p : State → Prop) (f : VoiceIdx → State → State)
    (hf : ∀ u t, p t → p (f u t)) (s : State) (h : p s) : p (s.forVoices f) := by
  rw [forVoices_eq]
  exact hf _ _ (hf _ _ (hf _ _ (hf _ _ (hf _ _ (hf _ _ (hf _ _ (hf _ _ h)))))))

/-- What no body changes, the loop does not change. -/
theorem forVoices_frame {α : Type} (view : State → α) (f : VoiceIdx → State → State)
    (hf : ∀ u t, view (f u t) = view t) (s : State) : view (s.forVoices f) = view s :=
  forVoices_keeps (fun t => view t = view s) f (fun u t h => (hf u t).trans h) s rfl

/-- Every voice is met exactly once by the loop, in ascending order. -/
theorem allVoices_split (v : VoiceIdx) :
    ∃ before after, allVoices = before ++ v :: after ∧ v ∉ before ∧ v ∉ after := by
  refine ⟨allVoices.take v.toNat, allVoices.drop (v.toNat + 1), ?_⟩
  revert v
  decide

/-- A loop whose body `u` changes only voice `u`, to `g u` of its registers, changes every voice `v`
to `g v` of its registers. `p` is what the body may rely on and keeps. -/
theorem forVoices_voice (p : State → Prop) (f : VoiceIdx → State → State) (g : VoiceIdx → Voice → Voice)
    (hp : ∀ u t, p t → p (f u t))
    (hf : ∀ u t v, p t → (f u t).voice v = if v = u then g u (t.voice u) else t.voice v)
    (s : State) (h : p s) (v : VoiceIdx) : (s.forVoices f).voice v = g v (s.voice v) := by
  have skip : ∀ l : List VoiceIdx, v ∉ l → ∀ t, p t →
      p (l.foldl (fun t u => f u t) t) ∧ (l.foldl (fun t u => f u t) t).voice v = t.voice v := by
    intro l
    induction l with
    | nil => exact fun _ t ht => ⟨ht, rfl⟩
    | cons u l ih =>
      intro hv t ht
      have hne : v ≠ u := fun e => hv (e ▸ List.mem_cons_self)
      have hl : v ∉ l := fun e => hv (List.mem_cons_of_mem _ e)
      obtain ⟨h1, h2⟩ := ih hl (f u t) (hp u t ht)
      exact ⟨h1, by rw [List.foldl_cons, h2, hf u t v ht, if_neg hne]⟩
  obtain ⟨before, after, hsplit, hb, ha⟩ := allVoices_split v
  obtain ⟨hp1, hv1⟩ := skip before hb s h
  simp only [State.forVoices, hsplit, List.foldl_append, List.foldl_cons]
  rw [(skip after ha _ (hp _ _ hp1)).2, hf _ _ _ hp1, if_pos rfl, hv1]

/-- The calls a loop adds are those its bodies add, in ascending order. -/
theorem forVoices_out (p : State → Prop) (f : VoiceIdx → State → State) (calls : VoiceIdx → List Call)
    (hp : ∀ u t, p t → p (f u t)) (s : State)
    (hf : ∀ u t, p t → t.voice u = s.voice u → (f u t).out = t.out ++ calls u)
    (hv : ∀ u t v, p t → v ≠ u → (f u t).voice v = t.voice v)
    (h : p s) : (s.forVoices f).out = s.out ++ allVoices.flatMap calls := by
  have go : ∀ l : List VoiceIdx, l.Nodup → ∀ t, p t → (∀ u ∈ l, t.voice u = s.voice u) →
      (l.foldl (fun t u => f u t) t).out = t.out ++ l.flatMap calls := by
    intro l
    induction l with
    | nil => intro _ t _ _; simp
    | cons u l ih =>
      intro hn t ht hs
      obtain ⟨hu, hl⟩ := List.nodup_cons.mp hn
      rw [List.foldl_cons, ih hl _ (hp _ _ ht), hf u t ht (hs u List.mem_cons_self)]
      · simp
      · intro w hw
        rw [hv u t w ht (fun e => hu (e ▸ hw)), hs w (List.mem_cons_of_mem _ hw)]
  exact go allVoices (by decide) s h (fun _ _ => rfl)

/-- A loop whose bodies write nothing but the register file writes nothing else. -/
theorem forVoices_voices_only (f : VoiceIdx → State → State)
    (hf : ∀ u t, f u t = { t with voices := (f u t).voices }) (s : State) :
    s.forVoices f = { s with voices := (s.forVoices f).voices } :=
  forVoices_keeps (fun t => t = { s with voices := t.voices }) f
    (fun u t h => by rw [hf u t]; rw [h]) s rfl

/-- A loop whose bodies write nothing but the register file and the trace writes nothing else. -/
theorem forVoices_voices_out_only (f : VoiceIdx → State → State)
    (hf : ∀ u t, f u t = { t with voices := (f u t).voices, out := (f u t).out }) (s : State) :
    s.forVoices f = { s with voices := (s.forVoices f).voices, out := (s.forVoices f).out } :=
  forVoices_keeps (fun t => t = { s with voices := t.voices, out := t.out }) f
    (fun u t h => by rw [hf u t]; rw [h]) s rfl

/-- A loop commutes with an update that its bodies commute with. -/
theorem forVoices_comm (f : VoiceIdx → State → State) (g : State → State) (h : ∀ v t, f v (g t) = g (f v t))
    (s : State) : (g s).forVoices f = g (s.forVoices f) := by
  simp only [forVoices_eq, h]

/-! ## A strike -/

/-- A strike writes one voice and issues its two calls, and does nothing else. -/
theorem strike_spec (s : State) (v : VoiceIdx) (sound : Call) (x : Voice) :
    (∀ u, (s.strike v sound x).voice u = if u = v then x else s.voice u) ∧
    (s.strike v sound x).out = s.out ++ [sound, .setAttenuation v x.att] ∧
    s.strike v sound x = { s with voices := (s.strike v sound x).voices, out := (s.strike v sound x).out } := by
  refine ⟨fun u => ?_, by simp [State.strike], rfl⟩
  simp [State.strike, voice_setVoice]

/-! ## One voice of a release, of a teardown, of a tick -/

theorem releaseMasked_voice (k : VoiceMask) (u v : VoiceIdx) (s : State) :
    (releaseMasked k u s).voice v =
      if v = u then (if maskHas k u then { s.voice u with tgt := attSilent } else s.voice u) else s.voice v := by
  unfold releaseMasked
  by_cases hv : v = u <;> by_cases hk : maskHas k u <;> simp [voice_setVoice, hv, hk]

/-- A release writes nothing but the register file. -/
theorem releaseMasked_frame (k : VoiceMask) (u : VoiceIdx) (s : State) :
    releaseMasked k u s = { s with voices := (releaseMasked k u s).voices } := by
  unfold releaseMasked
  split <;> rfl

theorem silenceVoice_voice (u v : VoiceIdx) (s : State) :
    (silenceVoice u s).voice v =
      if v = u then { s.voice u with att := attSilent, tgt := attSilent } else s.voice v := by
  simp only [silenceVoice, voice_setVoice]

/-- Silencing a voice writes nothing but the register file. -/
theorem silenceVoice_frame (u : VoiceIdx) (s : State) :
    silenceVoice u s = { s with voices := (silenceVoice u s).voices } := rfl

/-- The condition under which a tick moves a voice (42_envelope_tick.md R110). -/
theorem tickVoice_moved {v : VoiceIdx} {s : State} (h : s.att v < s.tgt v ∧ s.gateOpen v) :
    tickVoice v s = (s.setVoice v { s.voice v with att := s.att v + 1 }).emit (.setAttenuation v (s.att v + 1)) :=
  if_pos h

theorem tickVoice_still {v : VoiceIdx} {s : State} (h : ¬ (s.att v < s.tgt v ∧ s.gateOpen v)) :
    tickVoice v s = s :=
  if_neg h

/-- A ticked voice changes no other voice, and of the rest of the state only the trace. -/
theorem tickVoice_spec (u : VoiceIdx) (s : State) :
    (∀ v, (tickVoice u s).voice v =
      if v = u then (if s.att u < s.tgt u ∧ s.gateOpen u then { s.voice u with att := s.att u + 1 } else s.voice u)
      else s.voice v) ∧
    (tickVoice u s).out =
      s.out ++ (if s.att u < s.tgt u ∧ s.gateOpen u then [.setAttenuation u (s.att u + 1)] else []) ∧
    tickVoice u s = { s with voices := (tickVoice u s).voices, out := (tickVoice u s).out } := by
  by_cases h : s.att u < s.tgt u ∧ s.gateOpen u
  · rw [tickVoice_moved h]
    refine ⟨fun v => ?_, by simp [h], rfl⟩
    rw [if_pos h, emit_voice, voice_setVoice]
  · rw [tickVoice_still h]
    refine ⟨fun v => ?_, by simp [h], rfl⟩
    rw [if_neg h]
    split
    · next e => rw [e]
    · rfl

/-! ## Reading the stream -/

/-- The next byte is there exactly when the decoder is ready and the source holds one; taking it moves
the cursor and nothing else. -/
theorem nextByte_eq_some {s t : State} {b : Byte} :
    s.nextByte = some (b, t) ↔
      s.inReady = true ∧ ∃ rest, s.stream = b :: rest ∧ t = { s with stream := rest, pos := s.pos + 1 } := by
  unfold State.nextByte
  cases s.inReady <;> cases s.stream <;> simp [eq_comm]

/-- No byte is taken where the decoder is not ready or the source holds none. -/
theorem nextByte_eq_none {s : State} : s.nextByte = none ↔ s.inReady = false ∨ s.stream = [] := by
  unfold State.nextByte
  cases s.inReady <;> cases s.stream <;> simp

theorem inReady_iff (s : State) : s.inReady = true ↔ s.dstate = .fetchHi ∨ s.dstate = .fetchLo := by
  simp [State.inReady]

/-! ## The device view -/

/-- One more call at the end of a trace. -/
theorem devAtt_append (out : List Call) (c : Call) (v : VoiceIdx) :
    devAtt (out ++ [c]) v = devAttAfter v (devAtt out v) c := by
  simp [devAtt]

end Sys2Proof.Machine
end

