-- ==== Sys2Proof/Laws/PerInstr.lean ====
section
/-! SUPPORT. Facts of the syntax made per instruction: the tag of every encoded command is its
mnemonic's, and every command is well formed. -/

namespace Sys2Proof.Laws

/-- The two tag bits of each kind (30_encoding.md R61). -/
def tagOf : Instr → BitVec 2
  | .note _ _ _ => 0b00
  | .noise _ _ _ _ => 0b01
  | .delay _ => 0b10
  | .off _ => 0b11

/-- The tag stands in bits 15..14 of the encoded word (30_encoding.md R61). -/
def TagOfEncode.Statement (i : Instr) : Prop := field (encode i) 14 2 = tagOf i

/-- A field as a number: shift down, keep the low bits. -/
theorem field_toNat (w : Word) (lo width : Nat) : (field w lo width).toNat = w.toNat / 2 ^ lo % 2 ^ width := by
  simp [field, BitVec.extractLsb'_toNat, Nat.shiftRight_eq_div_pow]

theorem TagOfEncode.note (v : VoiceIdx) (a : Level) (n : NoteNum) : TagOfEncode.Statement (.note v a n) := by
  apply BitVec.eq_of_toNat_eq
  simp only [field_toNat, encode, tagOf, BitVec.ofNat_eq_ofNat, BitVec.toNat_ofNat]
  omega

theorem TagOfEncode.noise (s : Side) (m : GateMask) (a : Level) (t : NoiseType) :
    TagOfEncode.Statement (.noise s m a t) := by
  apply BitVec.eq_of_toNat_eq
  simp only [field_toNat, encode, tagOf, BitVec.ofNat_eq_ofNat, BitVec.toNat_ofNat]
  omega

theorem TagOfEncode.delay (d : Millis) : TagOfEncode.Statement (.delay d) := by
  apply BitVec.eq_of_toNat_eq
  simp only [field_toNat, encode, tagOf, BitVec.ofNat_eq_ofNat, BitVec.toNat_ofNat]
  omega

theorem TagOfEncode.off (k : VoiceMask) : TagOfEncode.Statement (.off k) := by
  apply BitVec.eq_of_toNat_eq
  simp only [field_toNat, encode, tagOf, BitVec.ofNat_eq_ofNat, BitVec.toNat_ofNat]
  omega

/-- No field value is out of range: each field's width equals the range of what it selects
(30_encoding.md R69). -/
theorem instr_wellFormed (i : Instr) : i.wellFormed = true := by
  cases i <;> simp [Instr.wellFormed, Instr.toLine, SourceLine.wellFormed, delayMax] <;> omega

end Sys2Proof.Laws
end

