-- ==== Sys2Proof/Laws/Step.lean ====
section
/-! SUPPORT. What a step can be, said once: the event it serves, the cases of a byte, the outcomes of
`exec`; and how runs unfold. -/

namespace Sys2Proof.Machine

/-! ## The schedule -/

@[simp] theorem nextEvent_nil : nextEvent [] = none := rfl

@[simp] theorem nextEvent_idle (later : List Instant) : nextEvent ([] :: later) = nextEvent later := rfl

/-- An instant with one event due. -/
@[simp] theorem nextEvent_single (e : Event) (later : List Instant) :
    nextEvent ([e] :: later) = some (e, later) := rfl

/-- A schedule without a reset serves none, and what it leaves holds none. -/
theorem nextEvent_noReset {schedule later : List Instant} {e : Event} (h : noReset schedule)
    (he : nextEvent schedule = some (e, later)) : e ≠ .reset ∧ noReset later := by
  induction schedule with
  | nil => cases he
  | cons due rest ih =>
    have hrest : noReset rest := fun d hd => h d (List.mem_cons_of_mem _ hd)
    have hdue : Event.reset ∉ due := h due List.mem_cons_self
    match due, hdue, he with
    | [], _, he => exact ih hrest he
    | [e'], hdue, he =>
      cases he
      exact ⟨fun hc => hdue (hc ▸ List.mem_cons_self), hrest⟩
    | e' :: e'' :: es, hdue, he =>
      simp only [nextEvent, if_neg hdue] at he
      cases he
      refine ⟨fun hc => hdue (hc ▸ List.mem_cons_self), fun d hd => ?_⟩
      rcases List.mem_cons.mp hd with rfl | hd
      · exact fun hc => hdue (List.mem_cons_of_mem _ hc)
      · exact hrest d hd

/-! ## A step -/

/-- The step that serves the event `e`. -/
theorem step_of_event {s : State} {e : Event} {later : List Instant}
    (h : nextEvent s.schedule = some (e, later)) : step s = applyEvent e { s with schedule := later } := by
  simp only [step, h]

/-- A step that answers a next state served no event and changed nothing, or served one event. -/
theorem step_next_cases {s t : State} (h : step s = .next t) :
    (nextEvent s.schedule = none ∧ t = s) ∨
    ∃ e later, nextEvent s.schedule = some (e, later) ∧
      applyEvent e { s with schedule := later } = .next t := by
  unfold step at h
  split at h
  · next hn => exact .inl ⟨hn, by cases h; rfl⟩
  · next e later hn => exact .inr ⟨e, later, hn, h⟩

/-- The outcomes of a byte: not taken; taken as a high byte; taken as a low byte, which runs the word. -/
theorem eventByte_cases (s : State) :
    (s.nextByte = none ∧ eventByte s = .next s) ∨
    (∃ b rest, s.dstate = .fetchHi ∧ s.stream = b :: rest ∧
      eventByte s = .next { s with stream := rest, pos := s.pos + 1, hi := b, dstate := .fetchLo }) ∨
    (∃ b rest, s.dstate = .fetchLo ∧ s.stream = b :: rest ∧
      eventByte s = exec (decodeWord (wordOfBytes s.hi b))
        { s with stream := rest, pos := s.pos + 1, dstate := .fetchHi }) := by
  unfold eventByte
  cases hn : s.nextByte with
  | none => exact .inl ⟨rfl, rfl⟩
  | some bt =>
    obtain ⟨b, t⟩ := bt
    obtain ⟨hr, rest, hs, rfl⟩ := nextByte_eq_some.mp hn
    rcases (inReady_iff s).mp hr with hd | hd
    · exact .inr (.inl ⟨b, rest, hd, hs, by simp [hd]⟩)
    · exact .inr (.inr ⟨b, rest, hd, hs, by simp [hd]⟩)

/-- What a command can be, with the one next state it answers. -/
theorem exec_cases (i : Instr) (s : State) :
    (∃ v a n, i = .note v a n ∧ exec i s =
      .next (s.strike v (.setFrequency v (freqLut s.cfg n)) ⟨a, releaseTarget a s.cfg.drop, s.cfg.toneGate⟩)) ∨
    (∃ side m a t, i = .noise side m a t ∧ exec i s =
      .next (s.strike (noiseLane s.cfg side) (.setNoise (noiseLane s.cfg side) t) ⟨a, attSilent, m⟩)) ∨
    (∃ d, i = .delay d ∧ exec i s =
      .next (if d = 0 then s else { s with delayCtr := d, dstate := .wait })) ∨
    (∃ k, i = .off k ∧ exec i s = .next (s.forVoices (releaseMasked k))) := by
  cases i with
  | note v a n => exact .inl ⟨v, a, n, rfl, rfl⟩
  | noise side m a t => exact .inr (.inl ⟨side, m, a, t, rfl, rfl⟩)
  | delay d => exact .inr (.inr (.inl ⟨d, rfl, rfl⟩))
  | off k => exact .inr (.inr (.inr ⟨k, rfl, rfl⟩))

/-- The states a step can lead to, each once: a property that survives each of them survives every step.
The cases are: the schedule moves on, a reset, a teardown (of a block not yet halted, with a cause that
steps record), a high byte, a low byte with its command, a strobe that ends a wait, one that counts it
down, an enabled tick. -/
theorem step_keeps (p : State → Prop)
    (schedule : ∀ s later, p s → p { s with schedule := later })
    (reset : ∀ s, p s → p s.resetBlock)
    (teardown : ∀ s c, c ≠ .none → c ≠ .fTag → s.dstate ≠ .halted → p s → p (s.teardown c))
    (high : ∀ s b rest, p s → s.dstate = .fetchHi → s.stream = b :: rest →
      p { s with stream := rest, pos := s.pos + 1, hi := b, dstate := .fetchLo })
    (low : ∀ s b rest t, p s → s.dstate = .fetchLo → s.stream = b :: rest →
      exec (decodeWord (wordOfBytes s.hi b)) { s with stream := rest, pos := s.pos + 1, dstate := .fetchHi } =
        .next t → p t)
    (last : ∀ s, p s → s.dstate = .wait → s.delayCtr = 1 → p { s with delayCtr := 0, dstate := .fetchHi })
    (count : ∀ s, p s → s.dstate = .wait → s.delayCtr ≠ 0 → s.delayCtr ≠ 1 →
      p { s with delayCtr := s.delayCtr - 1 })
    (tick : ∀ s, p s → s.tickEn = true → p (eventEnvTick s)) :
    ∀ s t, p s → step s = .next t → p t := by
  intro s t hp h
  rcases step_next_cases h with ⟨_, rfl⟩ | ⟨e, later, _, h⟩
  · exact hp
  have hu := schedule s later hp
  generalize { s with schedule := later } = u at hu h
  cases e with
  | reset => cases h; exact reset u hu
  | byte =>
    rcases eventByte_cases u with ⟨_, h1⟩ | ⟨b, rest, hd, hs, h1⟩ | ⟨b, rest, hd, hs, h1⟩ <;>
      simp only [applyEvent, h1] at h
    · cases h; exact hu
    · cases h; exact high u b rest hu hd hs
    · exact low u b rest t hu hd hs h
  | eos =>
    simp only [applyEvent, eventEos] at h
    cases h
    split
    · split
      · next hd => exact teardown _ _ (by decide) (by decide) (by rw [hd]; decide) hu
      · next hd => exact teardown _ _ (by decide) (by decide) (by rw [hd]; decide) hu
      · exact hu
      · exact hu
    · exact hu
  | msTick =>
    simp only [applyEvent, eventMsTick] at h
    split at h
    · split at h
      · cases h
      · split at h
        · cases h; exact last _ hu ‹_› ‹_›
        · cases h; exact count _ hu ‹_› ‹_› ‹_›
    · cases h; exact hu
  | envTick =>
    simp only [applyEvent] at h
    cases h
    cases ht : u.tickEn with
    | true => exact tick u hu ht
    | false => simp only [eventEnvTick, ht]; exact hu
  | stop =>
    simp only [applyEvent, eventStop] at h
    cases h
    split
    · exact hu
    · next hd => exact teardown _ _ (by decide) (by decide) hd hu

/-! ## A tick and a wait -/

/-- A tick writes nothing but the register file, the trace and the counter (42_envelope_tick.md R110). -/
theorem eventEnvTick_frame (s : State) :
    eventEnvTick s = { s with
      voices := (eventEnvTick s).voices, out := (eventEnvTick s).out, tickCtr := (eventEnvTick s).tickCtr } := by
  unfold eventEnvTick
  split
  · rw [forVoices_voices_out_only tickVoice (fun v t => (tickVoice_spec v t).2.2)]
  · rfl

/-- `s` with another schedule, delay counter and decoder state: what a wait moves and a tick never reads. -/
def State.withControl (x : List Instant) (y : Millis) (z : DState) (s : State) : State :=
  { s with schedule := x, delayCtr := y, dstate := z }

theorem tickVoice_withControl (x : List Instant) (y : Millis) (z : DState) (v : VoiceIdx) (s : State) :
    tickVoice v (s.withControl x y z) = (tickVoice v s).withControl x y z := by
  by_cases h : s.att v < s.tgt v ∧ s.gateOpen v
  · have h' := tickVoice_moved (s := s.withControl x y z) h
    rw [h', tickVoice_moved h]
    rfl
  · have h' := tickVoice_still (s := s.withControl x y z) h
    rw [h', tickVoice_still h]

/-- A tick reads none of the schedule, the delay counter and the decoder state (42_envelope_tick.md R110). -/
theorem eventEnvTick_withControl (x : List Instant) (y : Millis) (z : DState) (s : State) :
    eventEnvTick (s.withControl x y z) = (eventEnvTick s).withControl x y z := by
  have hs : ∀ s : State, eventEnvTick s =
      if s.tickEn then { s.forVoices tickVoice with tickCtr := (s.forVoices tickVoice).tickCtr + 1 } else s :=
    fun _ => rfl
  rw [hs, hs, forVoices_comm tickVoice (State.withControl x y z) (tickVoice_withControl x y z)]
  cases h : s.tickEn
  · rw [if_neg (by simp [State.withControl, h]), if_neg (by simp)]
  · rw [if_pos (by simp [State.withControl, h]), if_pos rfl]
    simp only [State.withControl]

/-- What each event but a reset and a stop does in `WAIT`: an offered byte and an end of stream nothing, an
envelope strobe its tick, a millisecond strobe its count. -/
theorem applyEvent_wait {s : State} (hw : s.dstate = .wait) :
    applyEvent .byte s = .next s ∧ applyEvent .eos s = .next s ∧
    applyEvent .envTick s = .next (eventEnvTick s) ∧
    (s.delayCtr = 1 → applyEvent .msTick s = .next { s with delayCtr := 0, dstate := .fetchHi }) ∧
    (s.delayCtr ≠ 0 → s.delayCtr ≠ 1 → applyEvent .msTick s = .next { s with delayCtr := s.delayCtr - 1 }) := by
  refine ⟨by simp [applyEvent, eventByte, State.nextByte, State.inReady, hw], by simp [applyEvent, eventEos, hw],
    rfl, fun h1 => ?_, fun h0 h1 => ?_⟩
  · have h0 : s.delayCtr ≠ 0 := by rw [h1]; decide
    simp only [applyEvent, eventMsTick, if_pos hw, if_neg h0, if_pos h1]
  · simp only [applyEvent, eventMsTick, if_pos hw, if_neg h0, if_neg h1]

/-! ## Schedules and the delay of a command -/

@[simp] theorem oneByOne_nil : oneByOne [] = [] := rfl

@[simp] theorem oneByOne_cons (e : Event) (es : List Event) : oneByOne (e :: es) = [e] :: oneByOne es := rfl

@[simp] theorem delayOf_note (v : VoiceIdx) (a : Level) (n : NoteNum) : delayOf (.note v a n) = 0 := rfl

@[simp] theorem delayOf_noise (side : Side) (m : GateMask) (a : Level) (t : NoiseType) :
    delayOf (.noise side m a t) = 0 := rfl

@[simp] theorem delayOf_delay (d : Millis) : delayOf (.delay d) = d := rfl

@[simp] theorem delayOf_off (k : VoiceMask) : delayOf (.off k) = 0 := rfl

@[simp] theorem commandSchedule_nil : commandSchedule [] = [] := rfl

@[simp] theorem commandSchedule_cons (i : Instr) (is : List Instr) :
    commandSchedule (i :: is) = [.byte] :: [.byte] :: (msTicks (delayOf i).toNat ++ commandSchedule is) := rfl

/-! ## Counts -/

/-- The open ticks of a run: the first tick's, then those of the rest, which starts one phase on. -/
theorem openTicks_succ (k : Nat) (c : BitVec 3) (g : GateMask) :
    openTicks (k + 1) c g = (if c &&& g = 0 then 1 else 0) + openTicks k (c + 1) g := by
  unfold openTicks
  rw [List.range_succ_eq_map, List.countP_cons, List.countP_map, Nat.add_comm]
  have hshift : ∀ x : Nat, c + BitVec.ofNat 3 (x + 1) = c + 1 + BitVec.ofNat 3 x := by
    intro x
    apply BitVec.eq_of_toNat_eq
    simp [BitVec.toNat_add]
    omega
  have hfun : (fun j => gateOpen (c + BitVec.ofNat 3 j) g) ∘ Nat.succ =
      fun j => gateOpen (c + 1 + BitVec.ofNat 3 j) g := by
    funext x
    simp only [Function.comp, Nat.succ_eq_add_one, hshift]
  rw [hfun]
  simp only [gateOpen, BitVec.ofNat_eq_ofNat, BitVec.add_zero, decide_eq_true_eq]

/-! ## Runs -/

@[simp] theorem run_zero (s : State) : run 0 s = .next s := rfl

/-- A run unfolds at its first step. -/
theorem run_succ {k : Nat} {s t : State} (h : step s = .next t) : run (k + 1) s = run k t := by
  have h' : Sys2Proof.core.step s = .next t := h
  simp only [run, Host.Core.run, h']
  rfl

/-- A run stops at a first step that stops. -/
theorem run_succ_fault {k : Nat} {s : State} {r : Fault} (h : step s = .fault r) : run (k + 1) s = .fault r := by
  have h' : Sys2Proof.core.step s = .fault r := h
  simp only [run, Host.Core.run, h']
  rfl

theorem run_succ_refused {k : Nat} {s : State} {r : Refusal} (h : step s = .refused r) :
    run (k + 1) s = .refused r := by
  have h' : Sys2Proof.core.step s = .refused r := h
  simp only [run, Host.Core.run, h']
  rfl

/-- A run that answers a next state took a first step. -/
theorem run_succ_next {k : Nat} {s t : State} (h : run (k + 1) s = .next t) :
    ∃ u, step s = .next u ∧ run k u = .next t := by
  cases hs : step s with
  | next u => exact ⟨u, rfl, run_succ hs ▸ h⟩
  | fault r => rw [run_succ_fault hs] at h; cases h
  | refused r => rw [run_succ_refused hs] at h; cases h

/-- A run splits at any point it reaches. -/
theorem run_add {j k : Nat} {s t : State} (h : run j s = .next t) : run (j + k) s = run k t := by
  induction j generalizing s with
  | zero => cases h; rw [Nat.zero_add]
  | succ j ih =>
    obtain ⟨u, hs, hu⟩ := run_succ_next h
    rw [Nat.succ_add, run_succ hs, ih hu]

/-- What every step keeps, a run keeps. -/
theorem run_keeps (p : State → Prop) (hp : ∀ s t, p s → step s = .next t → p t) {k : Nat} {s t : State}
    (hs : p s) (h : run k s = .next t) : p t := by
  induction k generalizing s with
  | zero => cases h; exact hs
  | succ k ih =>
    obtain ⟨u, hsu, hu⟩ := run_succ_next h
    exact ih (hp s u hs hsu) hu

end Sys2Proof.Machine
end

