-- ==== Sys2Proof/Tests/Slice0.lean ====
section
/-! SUPPORT. Tests: words written out from the encodings, ill-formed terms refused, one step of each command
and event with the numbers of 95_test_vectors.md, and for every statement with hypotheses a concrete
state and operands that meet them (`witness_<statement>`). -/

namespace Sys2Proof.Tests

open Sys2Proof.Machine

/-! ## Words written out from the encodings (30_encoding.md R62 to R65, section 6; 95_test_vectors.md 2.1) -/

theorem test_decode_note : decodeTableWord 16 0b00_010_0100_1000101 = some (.note 2 4 69) := by decide
theorem test_decode_note_all_ones : decodeTableWord 16 0b00_111_1111_1111111 = some (.note 7 15 127) := by decide
theorem test_decode_noise : decodeTableWord 16 0b01_000_1_011_0010_101 = some (.noise 1 3 2 5) := by decide
theorem test_decode_noise_reserved : decodeTableWord 16 0b01_111_0_111_1101_010 = some (.noise 0 7 13 2) := by decide
theorem test_decode_delay : decodeTableWord 16 0b10_00000111110100 = some (.delay 500) := by decide
theorem test_decode_off : decodeTableWord 16 0b11_000000_00000101 = some (.off 0x05) := by decide
theorem test_decode_off_reserved : decodeTableWord 16 0b11_100011_10100101 = some (.off 0xA5) := by decide

/-- The wire bytes 45 12 are the word 0x4512, a `NOISE` (95_test_vectors.md 2.1, byte order). -/
theorem test_decode_byte_order : decode [0x45, 0x12, 0xFF] = .ok (.noise 1 2 2 2, [0xFF]) := rfl

theorem test_decode_nothing : decode [] = .error .noByte := rfl
theorem test_decode_half_word : decode [0x81] = .error .halfWord := rfl
theorem test_decode_too_long : decodeTableWord 24 0 = none := by decide

theorem test_encode_note : encode (.note 2 4 69) = 0x1245 := by decide
theorem test_encode_noise : encode (.noise 1 3 2 5) = 0x4595 := by decide
theorem test_encode_delay : encode (.delay 16383) = 0xBFFF := by decide
theorem test_encode_off : encode (.off 0xFF) = 0xC0FF := by decide

/-! ## Ill-formed terms are refused (30_encoding.md R70, R71, R73) -/

theorem test_wf_note_voice : (SourceLine.note 8 0 0).wellFormed = false := by decide
theorem test_wf_note_attenuation : (SourceLine.note 0 16 0).wellFormed = false := by decide
theorem test_wf_note_number : (SourceLine.note 0 0 128).wellFormed = false := by decide
theorem test_wf_noise_side : (SourceLine.noise 2 0 0 0).wellFormed = false := by decide
theorem test_wf_noise_mask : (SourceLine.noise 0 8 0 0).wellFormed = false := by decide
theorem test_wf_noise_attenuation : (SourceLine.noise 0 0 16 0).wellFormed = false := by decide
theorem test_wf_noise_type : (SourceLine.noise 0 0 0 8).wellFormed = false := by decide
theorem test_wf_delay : (SourceLine.delay 16384).wellFormed = false := by decide
theorem test_wf_off : (SourceLine.off 256).wellFormed = false := by decide
theorem test_wf_word_noise : canonicalWord 0x7BEA = false := by decide
theorem test_wf_word_off : canonicalWord 0xE3A5 = false := by decide
theorem test_wf_stream_odd : streamWellFormed [0x12, 0x45, 0x81] = false := by decide
theorem test_wf_stream_reserved : streamWellFormed [0x12, 0x45, 0x7B, 0xEA] = false := by decide
theorem test_assemble_refuses : assemble [.note 0 0 0, .delay 16384] = none := by decide

/-- 95_test_vectors.md P3: `WAIT 20000` is `DELAY 16383`, `DELAY 3617`. -/
theorem test_assemble_wait :
    assemble [.note 1 5 47, .wait 20000, .note 1 0 69] =
      some [0x0A, 0xAF, 0xBF, 0xFF, 0x8E, 0x21, 0x08, 0x45] := by decide

/-! ## States to test on -/

/-- The reset state under `CFG_REF`, the `S0` of 95_test_vectors.md. -/
def s0 : State := { State.reset with cfg := referenceConfig }

/-- `s` with the event `e` due next and nothing after it. -/
def due (e : Event) (s : State) : State := { s with schedule := [[e]] }

/-- `s` with its voices' attenuations, targets and gates as listed, voice 0 first. -/
def withVoices (s : State) (voices : Vector Voice 8) : State := { s with voices := voices }

/-- The outcome is a next state with the property. -/
def next (o : Outcome) (check : State → Bool) : Bool :=
  match o with
  | .next t => check t
  | .fault _ => false
  | .refused _ => false

/-- Voice 2 playing: the state after `NOTE 2, 4, 69` (95_test_vectors.md P4, step 2). -/
def playing : State :=
  { s0.setVoice 2 ⟨4, 7, 0⟩ with
    pos := 2, out := [.silenceAll, .setFrequency 2 284, .setAttenuation 2 4], hi := 0x12 }

/-- In a delay with 7 milliseconds left (95_test_vectors.md 2.4 h). -/
def waiting : State := { playing with dstate := .wait, delayCtr := 7, hi := 0x80, pos := 4 }

/-- Inside the word `OFF 0x05`, its low byte next. -/
def midWord : State := { playing with dstate := .fetchLo, hi := 0xC0, stream := [0x05], pos := 3 }

/-- Torn down by a stop. -/
def ended : State := playing.teardown .stop

/-- The eight voices of 95_test_vectors.md 2.6. -/
def eight : Vector Voice 8 :=
  #v[⟨4, 7, 0⟩, ⟨15, 15, 0⟩, ⟨7, 7, 0⟩, ⟨13, 15, 7⟩, ⟨0, 3, 1⟩, ⟨14, 15, 2⟩, ⟨15, 15, 0⟩, ⟨2, 15, 3⟩]

/-! ## One step of each command (95_test_vectors.md 2.2 to 2.5) -/

theorem test_note : next (step (s0.withFetchWord 16 0x1245)) (fun t =>
    t.voice 2 = ⟨4, 7, 0⟩ && t.out.drop 1 = [.setFrequency 2 284, .setAttenuation 2 4] && t.pos = 2) = true := by
  decide

theorem test_note_saturates : next (step (s0.withFetchWord 16 0x16C5)) (fun t => t.voice 2 = ⟨13, 15, 0⟩) = true := by
  decide

theorem test_noise : next (step (s0.withFetchWord 16 0x4595)) (fun t =>
    t.voice 7 = ⟨2, 15, 3⟩ && t.voice 3 = ⟨15, 15, 0⟩ &&
      t.out.drop 1 = [.setNoise 7 5, .setAttenuation 7 2]) = true := by decide

/-- 95_test_vectors.md 2.3 e: another lane map. -/
theorem test_noise_lane : next (step (State.withFetchWord
    { s0 with cfg := { referenceConfig with noiseLane0 := 0, noiseLane1 := 4 } } 16 0x4595)) (fun t =>
    t.voice 4 = ⟨2, 15, 3⟩ && t.voice 7 = ⟨15, 15, 0⟩) = true := by decide

theorem test_delay : next (step (s0.withFetchWord 16 0x81F4)) (fun t =>
    t.dstate = .wait && t.delayCtr = 500) = true := by decide

theorem test_delay_zero : next (step (State.reset.withFetchWord 16 0x8000)) (fun t =>
    t.dstate = .fetchHi && t.delayCtr = 0 && t.pos = 2) = true := by decide

/-- 95_test_vectors.md 2.5 d: reserved bits set, mask 0xA5. -/
theorem test_off : next (exec (decodeWord 0xE3A5) (withVoices s0 eight)) (fun t =>
    allVoices.map t.tgt = [15, 15, 15, 15, 3, 15, 15, 15] &&
      allVoices.map t.att = [4, 15, 7, 13, 0, 14, 15, 2] && t.out = s0.out) = true := by decide

/-- 95_test_vectors.md 2.5 b: an empty mask. -/
theorem test_off_nothing : next (exec (.off 0) (withVoices s0 eight)) (fun t => t.voices = eight) = true := by
  decide

/-! ## One step of each event (95_test_vectors.md 2.4, 2.6, 2.7) -/

theorem test_byte_high : next (step (due .byte { s0 with stream := [0x12, 0x45] })) (fun t =>
    t.hi = 0x12 && t.dstate = .fetchLo && t.pos = 1 && t.stream = [0x45]) = true := by decide

theorem test_byte_in_wait : next (step (due .byte { waiting with stream := [0x12] })) (fun t =>
    t.stream = [0x12] && t.pos = 4 && t.delayCtr = 7) = true := by decide

theorem test_ms_tick_last : next (step (due .msTick { waiting with delayCtr := 1 })) (fun t =>
    t.dstate = .fetchHi && t.delayCtr = 0) = true := by decide

theorem test_ms_tick : next (step (due .msTick waiting)) (fun t => t.dstate = .wait && t.delayCtr = 6) = true := by
  decide

/-- 95_test_vectors.md 2.6, the row of counter 0. -/
theorem test_env_tick_phase_0 : next (step (due .envTick (withVoices s0 eight))) (fun t =>
    allVoices.map t.att = [5, 15, 7, 14, 1, 15, 15, 3] && t.tickCtr = 1 &&
      t.out.drop 1 = [.setAttenuation 0 5, .setAttenuation 3 14, .setAttenuation 4 1, .setAttenuation 5 15,
        .setAttenuation 7 3]) = true := by decide

/-- 95_test_vectors.md 2.6, the row of counter 7: only the ungated voice moves and the counter wraps. -/
theorem test_env_tick_phase_7 : next (step (due .envTick { withVoices s0 eight with tickCtr := 7 })) (fun t =>
    allVoices.map t.att = [5, 15, 7, 13, 0, 14, 15, 2] && t.tickCtr = 0 &&
      t.out.drop 1 = [.setAttenuation 0 5]) = true := by decide

theorem test_env_tick_halted : next (step (due .envTick ended)) (fun t =>
    t.tickCtr = ended.tickCtr && t.out = ended.out) = true := by decide

/-- 95_test_vectors.md 2.7 c: a stop cuts a wait. -/
theorem test_stop : next (step (due .stop waiting)) (fun t =>
    t.dstate = .halted && t.cause = .stop && t.tickEn = false && t.delayCtr = 0 && t.hi = 0x80 && t.pos = 4 &&
      t.att 2 = 15 && t.tgt 2 = 15 && t.out = waiting.out ++ [.silenceAll]) = true := by decide

theorem test_eos : next (step (due .eos playing)) (fun t => t.dstate = .halted && t.cause = .eos) = true := by decide

/-- 95_test_vectors.md 2.7 f and P4: a stream that ends inside a word. -/
theorem test_eos_truncated : next (step (due .eos { midWord with stream := [] })) (fun t =>
    t.cause.bits = 0b100 && t.fault && t.pos = 3 && t.hi = 0xC0) = true := by decide

theorem test_reset : next (step (due .reset ended)) (fun t =>
    t.voices = State.reset.voices && t.dstate = .fetchHi && t.tickEn && t.cause = .none && t.pos = 0 && t.hi = 0 &&
      t.out = [.silenceAll]) = true := by decide

/-- A stop due with a reset is lost (60_exceptions.md R139). -/
theorem test_reset_wins : next (step { playing with schedule := [[.stop, .reset], [.byte]] }) (fun t =>
    t.dstate = .fetchHi && t.schedule = [[.byte]]) = true := by decide

/-! ## The table and the device view -/

/-- Spot values of 95_test_vectors.md 2.8, the first folded, the last not. -/
theorem test_lut_spots : [0, 11, 45, 46, 47, 60, 69, 127].map (fun n => freqLut referenceConfig n) =
    [956, 1012, 568, 536, 1012, 478, 284, 10] := by decide

theorem test_formula_spots : [45, 46, 47, 69, 127].map (formulaEntry 4000000 1) = [568, 536, 1012, 284, 10] := by
  decide

theorem test_dev_att : devAtt playing.out 2 = some 4 ∧ devAtt playing.out 3 = some 15 ∧ devAtt [] 0 = none := by
  decide

theorem test_port : (Call.setAttenuation 5 9).transfer = ⟨0b01, 5, 9⟩ := by decide

theorem test_phases : (⟨4, 7, 0⟩ : Voice).subPhase = some .decaying ∧ (⟨7, 7, 0⟩ : Voice).subPhase = some .holding ∧
    (⟨7, 15, 0⟩ : Voice).phase = .releasing ∧ (⟨15, 15, 0⟩ : Voice).phase = .idle := by decide

/-! ## Witnesses: concrete states and operands that meet the hypotheses of the statements -/

/-- Each clause at both ends of its range. -/
theorem witness_DecodeReadsTagAndFields :
    (0x0000#16).toNat < 0x4000 ∧ (0x3FFF#16).toNat < 0x4000 ∧
    (0x4000 ≤ (0x4000#16).toNat ∧ (0x4000#16).toNat < 0x8000) ∧ (0x7FFF#16).toNat < 0x8000 ∧
    (0x8000 ≤ (0x8000#16).toNat ∧ (0x8000#16).toNat < 0xC000) ∧ (0xBFFF#16).toNat < 0xC000 ∧
    0xC000 ≤ (0xC000#16).toNat ∧ 0xC000 ≤ (0xFFFF#16).toNat := by decide

theorem witness_ReservedBitsAreIgnored :
    (0x43EA#16) &&& 0xC000 = 0x4000 ∧ (0x7FFF#16) &&& 0xC000 = 0x4000 ∧
    (0xC000#16) &&& 0xC000 = 0xC000 ∧ (0xFFFF#16) &&& 0xC000 = 0xC000 := by decide

theorem witness_AssembledStreamIsWellFormed :
    assemble [.noise 1 3 2 5, .wait 16384, .allOff] =
      some [0x45, 0x95, 0xBF, 0xFF, 0x80, 0x01, 0xC0, 0xFF] := by decide

theorem witness_HighByteIsHeld :
    ∃ s : State, nextEvent s.schedule = some (.byte, []) ∧ s.dstate = .fetchHi ∧ s.stream = 0x12 :: [0x45] :=
  ⟨due .byte { playing with stream := [0x12, 0x45] }, rfl, rfl, rfl⟩

theorem witness_StepRunsTheDecodedCommand :
    ∃ s : State, nextEvent s.schedule = some (.byte, []) ∧ s.dstate = .fetchLo ∧
      decode (s.hi :: s.stream) = .ok (.off 0x05, []) :=
  ⟨due .byte midWord, rfl, rfl, rfl⟩

/-- In `WAIT`, in `HALTED`, and with no byte left at a word boundary and inside a word. -/
theorem witness_OfferedByteIsNotTakenWhileNotReady :
    (nextEvent (due .byte waiting).schedule = some (.byte, []) ∧ (due .byte waiting).dstate = .wait) ∧
    (nextEvent (due .byte ended).schedule = some (.byte, []) ∧ (due .byte ended).dstate = .halted) ∧
    (let s := due .byte playing; nextEvent s.schedule = some (.byte, []) ∧ s.dstate = .fetchHi ∧ s.stream = []) ∧
    (let s := due .byte { midWord with stream := [] };
      nextEvent s.schedule = some (.byte, []) ∧ s.dstate = .fetchLo ∧ s.stream = []) :=
  ⟨⟨rfl, rfl⟩, ⟨rfl, rfl⟩, ⟨rfl, rfl, rfl⟩, rfl, rfl, rfl⟩

/-- A step that takes a byte, one that resets, one that does neither. -/
theorem witness_StreamIsConsumedInOrder :
    (∃ t, step (due .byte midWord) = .next t) ∧ (∃ t, step (due .reset midWord) = .next t) ∧
    (∃ t, step (due .envTick midWord) = .next t) :=
  ⟨⟨_, rfl⟩, ⟨_, rfl⟩, ⟨_, rfl⟩⟩

/-- Both sides. -/
theorem witness_NoiseStrikesItsLane :
    (3 : VoiceIdx) = (if (0 : Side) = 0 then s0.cfg.noiseLane0 else s0.cfg.noiseLane1) ∧
    (7 : VoiceIdx) = (if (1 : Side) = 0 then s0.cfg.noiseLane0 else s0.cfg.noiseLane1) := by decide

/-- A wait's events: two millisecond strobes and three envelope strobes. -/
def strobes : List Event := [.envTick, .msTick, .envTick, .envTick, .msTick]

/-- No delay, the shortest, the longest; and no strobe, the strobes of `DELAY 3` one short of its end, and all of
`DELAY 2`. -/
theorem witness_DelayLoadsTheCounter :
    ((0 : Millis) = 0 ∧ (0 : Millis) < 1 ∧ (0 : Millis) < 16383) ∧
    ((0 : Millis) < 3 ∧ ([] : List Event).count .msTick ≤ (3 : Millis).toNat ∧
      strobes.count .msTick + 1 = (3 : Millis).toNat ∧ strobes.count .msTick = (2 : Millis).toNat ∧
      ∀ e ∈ strobes, e = .msTick ∨ e = .envTick) ∧
    ∃ s : State, s.schedule = oneByOne strobes ++ [[.stop]] :=
  ⟨by decide, by decide, { s0 with schedule := oneByOne strobes ++ [[.stop]] }, rfl⟩

theorem witness_CommandsReachOnlyTheirState :
    (∃ t, exec (.note 2 4 69) playing = .next t) ∧ (∃ t, exec (.delay 1) playing = .next t) ∧
    (∃ t, exec (.off 4) playing = .next t) :=
  ⟨⟨_, rfl⟩, ⟨_, rfl⟩, ⟨_, rfl⟩⟩

/-- A command that does not name voice 2, and two different states that agree on voice 2. -/
theorem witness_VoicesAreIndependent :
    (namesVoice playing.cfg (.off 0xFB) 2 = false ∧ ∃ t, exec (.off 0xFB) playing = .next t) ∧
    (playing.cfg = (playing.setVoice 5 ⟨1, 4, 0⟩).cfg ∧
      playing.voice 2 = (playing.setVoice 5 ⟨1, 4, 0⟩).voice 2 ∧ (∃ t, exec (.off 4) playing = .next t) ∧
      ∃ t, exec (.off 4) (playing.setVoice 5 ⟨1, 4, 0⟩) = .next t) :=
  ⟨⟨by decide, _, rfl⟩, rfl, by decide, ⟨_, rfl⟩, _, rfl⟩

theorem witness_StreamRunsItsCommandsInOrder :
    ∃ (is : List Instr) (s : State), s.dstate = .fetchHi ∧
      s.stream = is.flatMap encodeBytes ++ [0x12] ∧ s.schedule = commandSchedule is ++ [[.stop]] ∧
      Instr.delay 0 ∈ is ∧ Instr.delay 2 ∈ is :=
  ⟨[.note 2 4 69, .delay 0, .delay 2, .off 4],
    { s0 with
      stream := [0x12, 0x45, 0x80, 0x00, 0x80, 0x02, 0xC0, 0x04, 0x12]
      schedule := oneByOne (List.replicate 6 .byte ++ [.msTick, .msTick, .byte, .byte]) ++ [[.stop]] },
    rfl, by decide, by decide, by decide, by decide⟩

/-- The last strobe of a wait, one before it, and a strobe outside a wait; strobes with envelope strobes among
them that leave a wait of 7 at 5, and that end a wait of 2. -/
theorem witness_MsTickCountsTheDelayDown :
    (nextEvent (due .msTick waiting).schedule = some (.msTick, []) ∧ (due .msTick waiting).dstate = .wait ∧
      (due .msTick waiting).delayCtr ≠ 0) ∧
    (let s := due .msTick { waiting with delayCtr := 1 };
      nextEvent s.schedule = some (.msTick, []) ∧ s.dstate = .wait ∧ s.delayCtr ≠ 0) ∧
    (nextEvent (due .msTick playing).schedule = some (.msTick, []) ∧ (due .msTick playing).dstate ≠ .wait) ∧
    (∀ e ∈ strobes, e = .msTick ∨ e = .envTick) ∧
    (let s : State := { waiting with schedule := oneByOne strobes ++ [[.stop]] };
      s.dstate = .wait ∧ s.delayCtr ≠ 0 ∧ strobes.count .msTick < s.delayCtr.toNat ∧
        s.schedule = oneByOne strobes ++ [[.stop]]) ∧
    (let s : State := { waiting with delayCtr := 2, schedule := oneByOne strobes ++ [[.stop]] };
      s.dstate = .wait ∧ s.delayCtr ≠ 0 ∧ strobes.count .msTick = s.delayCtr.toNat ∧
        s.schedule = oneByOne strobes ++ [[.stop]]) :=
  ⟨⟨rfl, rfl, by decide⟩, ⟨rfl, rfl, by decide⟩, ⟨rfl, by decide⟩, by decide, ⟨rfl, by decide, by decide, rfl⟩,
    rfl, by decide, by decide, rfl⟩

/-- Two strobes with every event but a reset and a stop among them: short of the end of a wait of 7, and one
short of the end of a wait of 3; the same for `DELAY 7` and `DELAY 3`. -/
theorem witness_WaitOutlastsItsInterruptions :
    let es : List Event := [.byte, .msTick, .envTick, .eos, .msTick, .byte]
    (∀ e ∈ es, e ≠ .reset ∧ e ≠ .stop) ∧
    (let s : State := { waiting with stream := [0x12], schedule := oneByOne es ++ [[.stop]] };
      s.dstate = .wait ∧ es.count .msTick < s.delayCtr.toNat ∧ s.schedule = oneByOne es ++ [[.stop]]) ∧
    (let s : State := { waiting with delayCtr := 3, schedule := oneByOne (es ++ [.msTick]) ++ [[.stop]] };
      s.dstate = .wait ∧ es.count .msTick + 1 = s.delayCtr.toNat ∧
        s.schedule = oneByOne (es ++ [.msTick]) ++ [[.stop]]) ∧
    es.count .msTick < (7 : Millis).toNat ∧ es.count .msTick + 1 = (3 : Millis).toNat := by
  decide

theorem witness_ZeroCounterInWaitStops :
    ∃ s : State, nextEvent s.schedule = some (.msTick, []) ∧ s.dstate = .wait ∧ s.delayCtr = 0 :=
  ⟨due .msTick { waiting with delayCtr := 0 }, rfl, rfl, rfl⟩

/-- A split with a zero in it; and one strobe short of the end of the last word. -/
theorem witness_DelayChunksAddUp :
    (∃ s : State, s.dstate = .fetchHi ∧ s.delayCtr = 0 ∧
      s.stream = (([0, 2, 1] : List Millis).map Instr.delay).flatMap encodeBytes ++ [] ∧
      s.schedule = delaySchedule [0, 2, 1] ++ []) ∧
    (∃ s : State, s.dstate = .fetchHi ∧ s.delayCtr = 0 ∧ 1 < (2 : Millis).toNat ∧
      s.stream = (([0] ++ [2] : List Millis).map Instr.delay).flatMap encodeBytes ++ [] ∧
      s.schedule = delaySchedule ([0] ++ [2]) ++ []) :=
  ⟨⟨{ s0 with stream := [0x80, 0, 0x80, 2, 0x80, 1], schedule := delaySchedule [0, 2, 1] }, rfl, rfl, by decide,
      by decide⟩,
    ⟨{ s0 with stream := [0x80, 0, 0x80, 2], schedule := delaySchedule [0, 2] }, rfl, rfl, by decide, by decide,
      by decide⟩⟩

/-- The tick enabled and disabled. -/
theorem witness_EnvTickRaisesTheOpenVoices :
    (nextEvent (due .envTick playing).schedule = some (.envTick, []) ∧ (due .envTick playing).tickEn = true) ∧
    (nextEvent (due .envTick ended).schedule = some (.envTick, []) ∧ (due .envTick ended).tickEn = false) :=
  ⟨⟨rfl, rfl⟩, rfl, rfl⟩

/-- Nine ticks, past the wrap; and a step that moves the counter. -/
theorem witness_TickCounterCountsEnabledTicks :
    (∃ s : State, s.tickEn = true ∧ s.schedule = envTicks 9 ++ []) ∧
    (∃ t, step (due .envTick playing) = .next t ∧ t.tickCtr ≠ playing.tickCtr) :=
  ⟨⟨{ playing with schedule := envTicks 9 }, rfl, by decide⟩, _, rfl, by decide⟩

theorem witness_EnvelopeFollowsOpenTicks :
    ∃ s : State, s.tickEn = true ∧ s.schedule = envTicks 3 ++ [[.stop]] ∧ s.att 2 < s.tgt 2 :=
  ⟨{ playing with schedule := envTicks 3 ++ [[.stop]] }, rfl, rfl, by decide⟩

/-- A released voice at level 14 and its eight ticks, and a silent one and none. -/
theorem witness_ReleasedVoiceFallsSilent :
    (∃ s : State, s.tickEn = true ∧ s.tgt 2 = 15 ∧ s.att 2 = 14 ∧ 8 * (15 - (s.att 2).toNat) ≤ 8 ∧
      s.schedule = envTicks 8 ++ []) ∧
    (∃ s : State, s.tickEn = true ∧ s.tgt 2 = 15 ∧ 8 * (15 - (s.att 2).toNat) ≤ 0 ∧ s.schedule = envTicks 0 ++ []) :=
  ⟨⟨{ s0.setVoice 2 ⟨14, 15, 7⟩ with schedule := envTicks 8 }, rfl, rfl, rfl, by decide, by decide⟩,
    ⟨s0, rfl, rfl, by decide, rfl⟩⟩

/-- Each of the three ranges of `a + DROP` under `DROP = 3`, at its ends: 0 and 11, 12 and 14, 15. -/
theorem witness_CommandsEnterTheirPhase :
    ((0 : Level) < 15 ∧ (0 : Level).toNat + s0.cfg.drop.toNat < 15) ∧
    ((11 : Level) < 15 ∧ (11 : Level).toNat + s0.cfg.drop.toNat < 15) ∧
    ((12 : Level) < 15 ∧ 15 ≤ (12 : Level).toNat + s0.cfg.drop.toNat) ∧
    ((14 : Level) < 15 ∧ 15 ≤ (14 : Level).toNat + s0.cfg.drop.toNat) ∧ (15 : Level) = 15 := by decide

/-- A voice in each phase, its gate open and shut. -/
theorem witness_TickMovesThePhase :
    let s := due .envTick (withVoices s0 eight)
    nextEvent s.schedule = some (.envTick, []) ∧ s.tickEn = true ∧
    (gateOpen s.tickCtr (s.gate 0) = true ∧ (s.voice 0).subPhase = some .decaying) ∧
    (s.voice 1).phase = .idle ∧ (s.voice 2).subPhase = some .holding ∧
    (gateOpen s.tickCtr (s.gate 5) = true ∧ (s.voice 5).phase = .releasing) ∧ gateOpen 1 (s.gate 3) = false := by
  decide

/-- Events but no reset behind the teardown. -/
theorem witness_TeardownSilencesAndHalts :
    noReset ({ playing with schedule := [[.stop, .envTick], [.byte], [.msTick, .eos]] } : State).schedule := by
  unfold noReset
  decide

/-- A running block and a halted one. -/
theorem witness_StopTearsDownOnce :
    (nextEvent (due .stop waiting).schedule = some (.stop, []) ∧ (due .stop waiting).dstate ≠ .halted) ∧
    (nextEvent (due .stop ended).schedule = some (.stop, []) ∧ (due .stop ended).dstate = .halted) :=
  ⟨⟨rfl, by decide⟩, rfl, rfl⟩

/-- At a word boundary, inside a word, in a wait, halted, and with a byte left. -/
theorem witness_EndOfStreamEndsTheRun :
    (let s := due .eos playing; nextEvent s.schedule = some (.eos, []) ∧ s.stream = [] ∧ s.dstate = .fetchHi) ∧
    (let s := due .eos { midWord with stream := [] };
      nextEvent s.schedule = some (.eos, []) ∧ s.stream = [] ∧ s.dstate = .fetchLo) ∧
    (due .eos waiting).dstate = .wait ∧ (due .eos ended).dstate = .halted ∧ (due .eos midWord).stream ≠ [] :=
  ⟨⟨rfl, rfl, rfl⟩, ⟨rfl, rfl, rfl⟩, rfl, rfl, by decide⟩

theorem witness_ResetRestoresEveryRegister : nextEvent (due .reset ended).schedule = some (.reset, []) := rfl

/-- A reset due alone, a reset due last of three events, and two events without a reset. -/
theorem witness_ResetWinsItsInstant :
    Event.reset ∈ ([.reset] : Instant) ∧ Event.reset ∈ ([.stop, .envTick, .reset] : Instant) ∧
    Event.reset ∉ ([.envTick, .byte] : Instant) := by decide

theorem witness_BothOrdersOfOneInstant :
    let s := { s0.setVoice 2 ⟨7, 7, 0⟩ with tickCtr := 5, dstate := .fetchLo, hi := 0xC0, stream := [0x04] }
    s.voice 2 = ⟨7, 7, 0⟩ ∧ (∀ v, v ≠ 2 → s.att v = s.tgt v) ∧ s.tickEn = true ∧ s.tickCtr = 5 ∧
    s.dstate = .fetchLo ∧ s.hi = 0xC0 ∧ s.stream = [0x04] := by decide

/-- Nothing scheduled, and an instant with nothing due. -/
theorem witness_NoEventNoChange : nextEvent s0.schedule = none ∧ nextEvent [[], []] = none := ⟨rfl, rfl⟩

theorem witness_HaltedIsLeftOnlyByReset :
    ∃ s t : State, s.dstate = .halted ∧ step s = .next t ∧ t.dstate ≠ .halted :=
  ⟨due .reset ended, _, rfl, rfl, by decide⟩

theorem witness_HaltedStaysUntilReset :
    ∃ s : State, s.dstate = .halted ∧ s.tickEn = false ∧ noReset s.schedule := by
  refine ⟨{ ended with schedule := [[.stop, .envTick], [.byte], [.msTick, .eos]], stream := [0x12] }, rfl, rfl, ?_⟩
  unfold noReset
  decide

theorem witness_LevelOrderIsKept : LevelOrder (due .envTick playing) ∧ ∃ t, step (due .envTick playing) = .next t :=
  ⟨by unfold LevelOrder; decide, _, rfl⟩

theorem witness_LatchCoherenceIsKept :
    LatchCoherent (due .envTick playing) ∧ ∃ t, step (due .envTick playing) = .next t :=
  ⟨by unfold LatchCoherent; decide, _, rfl⟩

/-- Inside a word and in a wait. -/
theorem witness_ControlStateIsKept :
    (ControlOk (due .byte midWord) ∧ ∃ t, step (due .byte midWord) = .next t) ∧
    (ControlOk (due .msTick waiting) ∧ ∃ t, step (due .msTick waiting) = .next t) :=
  ⟨⟨⟨by decide, by decide, by decide, by decide, by decide⟩, _, rfl⟩,
    ⟨⟨by decide, by decide, by decide, by decide, by decide⟩, _, rfl⟩⟩

theorem witness_HaltedSilenceIsKept :
    HaltedSilent (due .envTick ended) ∧ (due .envTick ended).dstate = .halted ∧
      ∃ t, step (due .envTick ended) = .next t :=
  ⟨⟨by decide, by decide, by decide⟩, rfl, _, rfl⟩

theorem witness_EveryStepCompletes : ControlOk (due .msTick waiting) := witness_ControlStateIsKept.2.1

theorem witness_TraceOnlyGrows :
    (∃ t, step (due .envTick playing) = .next t) ∧
      ∀ later, nextEvent (due .envTick playing).schedule ≠ some (.reset, later) :=
  ⟨⟨_, rfl⟩, fun _ h => by simp [due] at h⟩

theorem witness_ConfigurationNeverChanges : ∃ t, step (due .reset playing) = .next t := ⟨_, rfl⟩

/-- A tick that raises voice 2, and a stop that silences it. -/
theorem witness_LevelsMoveOnlyByTheirEvents :
    (∃ t, step (due .envTick playing) = .next t ∧ t.att 2 ≠ (due .envTick playing).att 2) ∧
    (∃ t, step (due .stop playing) = .next t ∧ t.att 2 ≠ (due .stop playing).att 2) :=
  ⟨⟨_, rfl, by decide⟩, _, rfl, by decide⟩

/-- A stop disables the tick, a reset enables it. -/
theorem witness_OnlyTeardownStopsTheTick :
    (∃ t, step (due .stop playing) = .next t ∧ playing.tickEn = true ∧ t.tickEn = false) ∧
    (∃ t, step (due .reset ended) = .next t ∧ ended.tickEn = false ∧ t.tickEn = true) :=
  ⟨⟨_, rfl, rfl, rfl⟩, _, rfl, rfl, rfl⟩

theorem witness_TagFaultIsNeverRaised :
    ∃ t, step (due .eos { midWord with stream := [] }) = .next t ∧ midWord.cause ≠ .fTag := ⟨_, rfl, by decide⟩

end Sys2Proof.Tests
end

