-- ==== Sys2Proof/Proofs/Reset.lean ====
section
/-! PROOF. The state after reset (10_state.md R29). -/

namespace Sys2Proof.Machine

/-- After reset every voice is silent, with nowhere to ramp and its gate mask clear (10_state.md R29). -/
@[simp] theorem voice_reset (v : VoiceIdx) : State.reset.voice v = ⟨attSilent, attSilent, 0⟩ := by
  simp [State.voice, State.reset, Vector.getElem_replicate]

/-- Settles O43: the per-voice registers by `voice_reset`, every other register as `State.reset` writes it. -/
theorem resetStateValues : Obligations.ResetStateValues := by
  have hvoices : ∀ v, State.reset.att v = 15 ∧ State.reset.tgt v = 15 ∧ State.reset.gate v = 0 := by
    intro v
    simp [State.att, State.tgt, State.gate]
  exact ⟨hvoices, rfl, rfl, rfl, rfl, rfl, rfl, rfl, rfl⟩

end Sys2Proof.Machine
end

section
/-! PROOF. The encoding of command words: where an encoded word holds its fields (30_encoding.md R62 to
R65), and that reserved bits are not examined (R68). -/

namespace Sys2Proof.Laws

/-! ## Fields of masked and flipped words -/

theorem field_and (w x : Word) (lo width : Nat) :
    field (w &&& x) lo width = field w lo width &&& field x lo width :=
  BitVec.extractLsb'_and

theorem field_xor (w x : Word) (lo width : Nat) :
    field (w ^^^ x) lo width = field w lo width ^^^ field x lo width :=
  BitVec.extractLsb'_xor

/-- Changing bits under a mask that misses a field leaves the field. -/
theorem field_flip {mask : Word} {lo width : Nat} (w x : Word) (hmask : field mask lo width = 0#width) :
    field (w ^^^ (x &&& mask)) lo width = field w lo width := by
  simp [field_xor, field_and, hmask]

/-- A field is known by its number. -/
theorem field_eq_of_toNat {w : Word} {lo width : Nat} {x : BitVec width}
    (h : w.toNat / 2 ^ lo % 2 ^ width = x.toNat) : field w lo width = x :=
  BitVec.eq_of_toNat_eq ((field_toNat w lo width).trans h)

/-- The mask of a field: ones at its positions, zeros elsewhere. -/
def fieldMask (lo width : Nat) : Word := (BitVec.allOnes width).setWidth 16 <<< lo

/-- Masking a word to a field leaves the field's value at its position. -/
theorem and_fieldMask (w : Word) (lo width : Nat) :
    w &&& fieldMask lo width = (field w lo width).setWidth 16 <<< lo := by
  ext i hi
  by_cases h : i < lo
  · simp [fieldMask, h]
  · have hpos : lo + (i - lo) = i := by omega
    simp [fieldMask, field, h, hpos, BitVec.getLsbD_eq_getElem hi, Bool.and_comm]

/-- The bits under the mask of the opcode map are the tag (30_encoding.md R61, R74). -/
theorem and_tagMask (w : Word) : w &&& (0xC000 : Word) = (field w 14 2).setWidth 16 <<< 14 :=
  and_fieldMask w 14 2

/-- A word that meets a match under the mask of the opcode map has the match's tag. -/
theorem tag_of_match {w m : Word} (h : w &&& 0xC000 = m) : field w 14 2 = field m 14 2 := by
  have hones : field 0xC000 14 2 = BitVec.allOnes 2 := rfl
  rw [← h, field_and, hones, BitVec.and_allOnes]

/-! ## Where an encoded word holds its fields -/

/-- The tag stands in bits 15..14, for every command. -/
theorem tag_encode (i : Instr) : field (encode i) 14 2 = tagOf i := by
  cases i with
  | note v a n => exact TagOfEncode.note v a n
  | noise s m a t => exact TagOfEncode.noise s m a t
  | delay d => exact TagOfEncode.delay d
  | off k => exact TagOfEncode.off k

/-- An encoded word meets, under the mask, the match with its command's tag on top. -/
theorem encode_meets_match {i : Instr} {m : Word} (h : (tagOf i).setWidth 16 <<< 14 = m) :
    encode i &&& 0xC000 = m := by
  rw [and_tagMask, tag_encode, h]

/-- The sum of R62 fits the word. -/
theorem encode_note_toNat (v : VoiceIdx) (a : Level) (n : NoteNum) :
    (encode (.note v a n)).toNat = v.toNat * 2 ^ 11 + a.toNat * 2 ^ 7 + n.toNat := by
  simp only [encode, BitVec.toNat_ofNat]
  omega

/-- The sum of R63 fits the word. -/
theorem encode_noise_toNat (s : Side) (m : GateMask) (a : Level) (t : NoiseType) :
    (encode (.noise s m a t)).toNat =
      0x4000 + s.toNat * 2 ^ 10 + m.toNat * 2 ^ 7 + a.toNat * 2 ^ 3 + t.toNat := by
  simp only [encode, BitVec.toNat_ofNat]
  omega

/-- The sum of R64 fits the word. -/
theorem encode_delay_toNat (d : Millis) : (encode (.delay d)).toNat = 0x8000 + d.toNat := by
  simp only [encode, BitVec.toNat_ofNat]
  omega

/-- The sum of R65 fits the word. -/
theorem encode_off_toNat (k : VoiceMask) : (encode (.off k)).toNat = 0xC000 + k.toNat := by
  simp only [encode, BitVec.toNat_ofNat]
  omega

/-- The fields of a note-on (30_encoding.md R62). -/
theorem encode_note_fields (v : VoiceIdx) (a : Level) (n : NoteNum) :
    field (encode (.note v a n)) 11 3 = v ∧ field (encode (.note v a n)) 7 4 = a ∧
      field (encode (.note v a n)) 0 7 = n := by
  refine ⟨?voice, ?level, ?note⟩ <;> apply field_eq_of_toNat <;> rw [encode_note_toNat] <;> omega

/-- The reserved bits and the fields of a noise-on (30_encoding.md R63). -/
theorem encode_noise_fields (s : Side) (m : GateMask) (a : Level) (t : NoiseType) :
    field (encode (.noise s m a t)) 11 3 = 0#3 ∧ field (encode (.noise s m a t)) 10 1 = s ∧
      field (encode (.noise s m a t)) 7 3 = m ∧ field (encode (.noise s m a t)) 3 4 = a ∧
      field (encode (.noise s m a t)) 0 3 = t := by
  refine ⟨?reserved, ?side, ?mask, ?level, ?type⟩ <;> apply field_eq_of_toNat <;>
    simp only [encode_noise_toNat, BitVec.toNat_ofNat] <;> omega

/-- The field of a delay (30_encoding.md R64). -/
theorem encode_delay_field (d : Millis) : field (encode (.delay d)) 0 14 = d := by
  apply field_eq_of_toNat
  rw [encode_delay_toNat]
  omega

/-- The reserved bits and the field of a release (30_encoding.md R65). -/
theorem encode_off_fields (k : VoiceMask) :
    field (encode (.off k)) 8 6 = 0#6 ∧ field (encode (.off k)) 0 8 = k := by
  refine ⟨?reserved, ?voices⟩ <;> apply field_eq_of_toNat <;>
    simp only [encode_off_toNat, BitVec.toNat_ofNat] <;> omega

/-- Settles O3: the tag and the match by `tag_encode` for every command, the fields and the sum by the
lemmas of its format. -/
theorem encodePlacesTheFields : Obligations.EncodePlacesTheFields := by
  refine ⟨fun v a n => ?note, fun s m a t => ?noise, fun d => ?delay, fun k => ?off⟩
  case note =>
    obtain ⟨hv, ha, hn⟩ := encode_note_fields v a n
    exact ⟨tag_encode _, hv, ha, hn, encode_meets_match (by simp [tagOf]), encode_note_toNat v a n⟩
  case noise =>
    obtain ⟨hr, hs, hm, ha, ht⟩ := encode_noise_fields s m a t
    exact ⟨tag_encode _, hr, hs, hm, ha, ht, encode_meets_match (by simp [tagOf]), encode_noise_toNat s m a t⟩
  case delay =>
    exact ⟨tag_encode _, encode_delay_field d, encode_meets_match (by simp [tagOf]), encode_delay_toNat d⟩
  case off =>
    obtain ⟨hr, hk⟩ := encode_off_fields k
    exact ⟨tag_encode _, hr, hk, encode_meets_match (by simp [tagOf]), encode_off_toNat k⟩

/-! ## Reserved bits -/

/-- The two bits the decoder tests are the two of the tag. -/
theorem tag_bits (w : Word) :
    field w 15 1 = (field w 14 2).extractLsb' 1 1 ∧ field w 14 1 = (field w 14 2).extractLsb' 0 1 := by
  constructor <;> apply BitVec.eq_of_toNat_eq <;>
    simp only [field_toNat, BitVec.extractLsb'_toNat, Nat.shiftRight_eq_div_pow] <;> omega

/-- What a word with the tag of a noise-on decodes to (30_encoding.md R67). -/
theorem decodeWord_of_tag_noise {w : Word} (h : field w 14 2 = 0b01#2) :
    decodeWord w = .noise (field w 10 1) (field w 7 3) (field w 3 4) (field w 0 3) := by
  obtain ⟨h15, h14⟩ := tag_bits w
  rw [h] at h15 h14
  simp [decodeWord, h15, h14]

/-- What a word with the tag of a release decodes to (30_encoding.md R67). -/
theorem decodeWord_of_tag_off {w : Word} (h : field w 14 2 = 0b11#2) : decodeWord w = .off (field w 0 8) := by
  obtain ⟨h15, h14⟩ := tag_bits w
  rw [h] at h15 h14
  simp [decodeWord, h15, h14]

/-- The mask of the reserved bits of a noise-on misses the tag and every field. -/
theorem decodeWord_flip_noise {w : Word} (x : Word) (h : field w 14 2 = 0b01#2) :
    decodeWord (w ^^^ (x &&& 0x3800)) = decodeWord w := by
  have htag : field (w ^^^ (x &&& 0x3800)) 14 2 = 0b01#2 := (field_flip w x rfl).trans h
  rw [decodeWord_of_tag_noise htag, decodeWord_of_tag_noise h]
  congr 1 <;> exact field_flip w x rfl

/-- The mask of the reserved bits of a release misses the tag and the voice mask. -/
theorem decodeWord_flip_off {w : Word} (x : Word) (h : field w 14 2 = 0b11#2) :
    decodeWord (w ^^^ (x &&& 0x3F00)) = decodeWord w := by
  have htag : field (w ^^^ (x &&& 0x3F00)) 14 2 = 0b11#2 := (field_flip w x rfl).trans h
  rw [decodeWord_of_tag_off htag, decodeWord_of_tag_off h, field_flip w x rfl]

/-- A noise-on is encoded with zeros in w[13:11] (30_encoding.md R68). -/
theorem encode_noise_reserved (s : Side) (m : GateMask) (a : Level) (t : NoiseType) :
    encode (.noise s m a t) &&& 0x3800 = 0 := by
  obtain ⟨hreserved, -⟩ := encode_noise_fields s m a t
  calc encode (.noise s m a t) &&& 0x3800
      = (field (encode (.noise s m a t)) 11 3).setWidth 16 <<< 11 := and_fieldMask _ 11 3
    _ = 0 := by rw [hreserved]; rfl

/-- A release is encoded with zeros in w[13:8] (30_encoding.md R68). -/
theorem encode_off_reserved (k : VoiceMask) : encode (.off k) &&& 0x3F00 = 0 := by
  obtain ⟨hreserved, -⟩ := encode_off_fields k
  calc encode (.off k) &&& 0x3F00
      = (field (encode (.off k)) 8 6).setWidth 16 <<< 8 := and_fieldMask _ 8 6
    _ = 0 := by rw [hreserved]; rfl

/-- Settles O6: a match fixes the tag (`tag_of_match`), and the decoder reads no reserved bit of a word
with that tag. -/
theorem reservedBitsAreIgnored : Obligations.ReservedBitsAreIgnored :=
  ⟨fun _ x h => decodeWord_flip_noise x (tag_of_match h), fun _ x h => decodeWord_flip_off x (tag_of_match h),
    encode_noise_reserved, encode_off_reserved⟩

end Sys2Proof.Laws
end

section
/-! PROOF. The command decoder: the fetch of a word (41_command_decoder.md R90, R91), the effect of each
command (R94 to R97) and the countdown of a delay by the millisecond strobe (R96, R98). -/

namespace Sys2Proof.Machine

/-! ## Fetch -/

/-- A byte taken at a word boundary. -/
theorem eventByte_fetchHi {s : State} {b : Byte} {rest : List Byte} (hd : s.dstate = .fetchHi)
    (hs : s.stream = b :: rest) :
    eventByte s = .next { s with stream := rest, pos := s.pos + 1, hi := b, dstate := .fetchLo } := by
  have hn : s.nextByte = some (b, { s with stream := rest, pos := s.pos + 1 }) :=
    nextByte_eq_some.mpr ⟨(inReady_iff s).mpr (.inl hd), rest, hs, rfl⟩
  simp only [eventByte, hn, if_pos hd]

/-- A byte taken inside a word, which it completes. -/
theorem eventByte_fetchLo {s : State} {b : Byte} {rest : List Byte} (hd : s.dstate = .fetchLo)
    (hs : s.stream = b :: rest) :
    eventByte s = exec (decodeWord (wordOfBytes s.hi b))
      { s with stream := rest, pos := s.pos + 1, dstate := .fetchHi } := by
  have hn : s.nextByte = some (b, { s with stream := rest, pos := s.pos + 1 }) :=
    nextByte_eq_some.mpr ⟨(inReady_iff s).mpr (.inr hd), rest, hs, rfl⟩
  have hne : s.dstate ≠ .fetchHi := by rw [hd]; decide
  simp only [eventByte, hn, if_neg hne]

/-- A held high byte decodes with the stream exactly when the stream holds the low byte. -/
theorem decode_held_eq_ok {hi : Byte} {stream rest : List Byte} {i : Instr} :
    decode (hi :: stream) = .ok (i, rest) ↔ ∃ b, stream = b :: rest ∧ decodeWord (wordOfBytes hi b) = i := by
  cases stream with
  | nil => simp [decode]
  | cons b tail => simp [decode, and_comm]

/-- Settles O11: `eventByte_fetchHi` at the state whose schedule has moved on. -/
theorem highByteIsHeld : Obligations.HighByteIsHeld := by
  intro s later b rest he hd hs
  rw [step_of_event he]
  exact eventByte_fetchHi (s := { s with schedule := later }) hd hs

/-- Settles O12: the stream holds the low byte (`decode_held_eq_ok`), which `eventByte_fetchLo` takes. -/
theorem stepRunsTheDecodedCommand : Obligations.StepRunsTheDecodedCommand := by
  intro s later i rest he hd hdec
  obtain ⟨b, hs, rfl⟩ := decode_held_eq_ok.mp hdec
  refine ⟨Laws.instr_wellFormed _, ?_⟩
  rw [step_of_event he]
  exact eventByte_fetchLo (s := { s with schedule := later }) hd hs

/-! ## The commands that act on voices -/

/-- The saturated sum fits the four bits of a level (42_envelope_tick.md R114). -/
theorem releaseTarget_toNat (a : Level) (drop : BitVec 4) :
    (releaseTarget a drop).toNat = min 15 (a.toNat + drop.toNat) := by
  rw [releaseTarget, BitVec.toNat_ofNat, Nat.mod_eq_of_lt (by omega)]

/-- Settles O15: a note-on is a strike (`strike_spec`), its target by `releaseTarget_toNat`. -/
theorem noteStrikesItsVoice : Obligations.NoteStrikesItsVoice := by
  intro s v a n
  obtain ⟨hvoice, hout, hframe⟩ := strike_spec s v (.setFrequency v (freqLut s.cfg n))
    ⟨a, releaseTarget a s.cfg.drop, s.cfg.toneGate⟩
  have hv := (hvoice v).trans (if_pos rfl)
  refine ⟨_, rfl, ?att, ?tgt, ?gate, fun u hu => (hvoice u).trans (if_neg hu), hout, hframe⟩
  case att => rw [State.att, hv]
  case tgt => rw [State.tgt, hv, releaseTarget_toNat]
  case gate => rw [State.gate, hv]

/-- Settles O16: a noise-on is a strike of the lane its side selects (`strike_spec`). -/
theorem noiseStrikesItsLane : Obligations.NoiseStrikesItsLane := by
  intro s side m a ty v hlane
  have hv : noiseLane s.cfg side = v := hlane.symm
  obtain ⟨hvoice, hout, hframe⟩ := strike_spec s v (.setNoise v ty) ⟨a, attSilent, m⟩
  have hexec : exec (.noise side m a ty) s = .next (s.strike v (.setNoise v ty) ⟨a, attSilent, m⟩) := by
    rw [← hv]; rfl
  exact ⟨_, hexec, (hvoice v).trans (if_pos rfl), fun u hu => (hvoice u).trans (if_neg hu), hout, hframe⟩

/-- What a release makes of the registers of voice `v` (41_command_decoder.md R97). -/
def released (k : VoiceMask) (v : VoiceIdx) (x : Voice) : Voice :=
  if maskHas k v then { x with tgt := attSilent } else x

theorem released_tgt (k : VoiceMask) (v : VoiceIdx) (x : Voice) :
    (released k v x).tgt = if maskHas k v then attSilent else x.tgt := by
  unfold released
  split <;> rfl

theorem released_att (k : VoiceMask) (v : VoiceIdx) (x : Voice) : (released k v x).att = x.att := by
  unfold released
  split <;> rfl

theorem released_gate (k : VoiceMask) (v : VoiceIdx) (x : Voice) : (released k v x).gate = x.gate := by
  unfold released
  split <;> rfl

/-- The loop of a release treats every voice by its own bit of the mask. -/
theorem forVoices_releaseMasked_voice (k : VoiceMask) (s : State) (v : VoiceIdx) :
    (s.forVoices (releaseMasked k)).voice v = released k v (s.voice v) :=
  forVoices_voice (fun _ => True) (releaseMasked k) (released k) (fun _ _ _ => trivial)
    (fun u t w _ => releaseMasked_voice k u w t) s trivial v

/-- Settles O18: voice by voice the loop is `released`, and it writes nothing but the register file. -/
theorem offReleasesTheMask : Obligations.OffReleasesTheMask := by
  intro s k
  have hvoice := forVoices_releaseMasked_voice k s
  refine ⟨_, rfl, fun i => ?tgt, fun i => ⟨?att, ?gate⟩, forVoices_voices_only _ (releaseMasked_frame k) s⟩
  case tgt => rw [State.tgt, hvoice, released_tgt]; rfl
  case att => rw [State.att, hvoice, released_att]
  case gate => rw [State.gate, hvoice, released_gate]

/-! ## The countdown of a delay -/

/-- `s` with another schedule and `d` milliseconds of a delay left: in the wait, or at the word boundary
when none is left (41_command_decoder.md R96, R98). -/
def State.counting (later : List Instant) (d : Millis) (s : State) : State :=
  s.withControl later d (if d = 0 then .fetchHi else .wait)

@[simp] theorem counting_delayCtr (later : List Instant) (d : Millis) (s : State) :
    (s.counting later d).delayCtr = d := rfl
@[simp] theorem counting_dstate (later : List Instant) (d : Millis) (s : State) :
    (s.counting later d).dstate = if d = 0 then .fetchHi else .wait := rfl

/-- A state in a wait counts what its counter holds. -/
theorem eq_counting_of_wait {s : State} (hw : s.dstate = .wait) (h0 : s.delayCtr ≠ 0) :
    s = s.counting s.schedule s.delayCtr := by
  simp only [State.counting, if_neg h0, ← hw]
  rfl

/-- While it counts, the decoder is ready exactly when nothing is left. -/
theorem counting_inReady (later : List Instant) (d : Millis) (s : State) :
    (s.counting later d).inReady = true ↔ d = 0 := by
  rw [inReady_iff, counting_dstate]
  by_cases h : d = 0
  · simp [h]
  · simp only [h, if_false, reduceCtorEq, or_self]

/-- `DELAY d` with `d > 0` starts the count at `d` (41_command_decoder.md R96). -/
theorem exec_delay_pos {d : Millis} (h : d ≠ 0) (s : State) :
    exec (.delay d) s = .next (s.counting s.schedule d) := by
  have hexec : exec (.delay d) s = .next (if d = 0 then s else { s with delayCtr := d, dstate := .wait }) := rfl
  rw [hexec, if_neg h, State.counting, if_neg h]
  rfl

/-- A millisecond strobe in a wait takes one from the count (41_command_decoder.md R98). -/
theorem step_msTick_wait {s : State} {later : List Instant} (he : nextEvent s.schedule = some (.msTick, later))
    (hw : s.dstate = .wait) (h0 : s.delayCtr ≠ 0) : step s = .next (s.counting later (s.delayCtr - 1)) := by
  obtain ⟨-, -, -, hlast, hcount⟩ := applyEvent_wait (s := { s with schedule := later }) hw
  rw [step_of_event he]
  by_cases h1 : s.delayCtr = 1
  · rw [hlast h1, h1]
    rfl
  · have hleft : s.delayCtr - 1 ≠ 0 := fun h => h1 (sub_eq_zero.mp h)
    rw [hcount h0 h1, State.counting, if_neg hleft, ← hw]
    rfl

/-- Outside a wait a millisecond strobe is only used up (41_command_decoder.md R98). -/
theorem step_msTick_outside_wait {s : State} {later : List Instant}
    (he : nextEvent s.schedule = some (.msTick, later)) (hw : s.dstate ≠ .wait) :
    step s = .next { s with schedule := later } := by
  rw [step_of_event he]
  exact if_neg hw

/-- Envelope strobes neither read nor move the count (42_envelope_tick.md R110). -/
theorem step_envTick_counting (later : List Instant) (d : Millis) (s : State) :
    step (s.counting ([.envTick] :: later) d) = .next ((eventEnvTick s).counting later d) := by
  rw [step_of_event (nextEvent_single .envTick later)]
  exact congrArg Host.Outcome.next (eventEnvTick_withControl later d (if d = 0 then .fetchHi else .wait) s)

/-- One strobe fewer, as a number. -/
theorem toNat_sub_one {d : Millis} (h : d ≠ 0) : (d - 1).toNat = d.toNat - 1 := by
  bv_omega

/-- The strobes of a delay: the millisecond strobes bring the count from `d` down to `r`, and the envelope
strobes among them do what they do alone. -/
theorem run_counting (es : List Event) (later : List Instant) {r : Millis}
    (hes : ∀ e ∈ es, e = .msTick ∨ e = .envTick) (d : Millis) (s : State)
    (hd : d.toNat = r.toNat + es.count .msTick) :
    run es.length (s.counting (oneByOne es ++ later) d) =
      .next ((eventEnvTick^[es.count .envTick] s).counting later r) := by
  induction es generalizing d s with
  | nil =>
    obtain rfl : d = r := BitVec.eq_of_toNat_eq hd
    rfl
  | cons e es ih =>
    have hrest : ∀ e ∈ es, e = .msTick ∨ e = .envTick := fun e he => hes e (List.mem_cons_of_mem _ he)
    rcases hes e List.mem_cons_self with rfl | rfl
    · have hcount : d.toNat = r.toNat + (es.count .msTick + 1) := by simpa using hd
      have h0 : d ≠ 0 := by rintro rfl; simp at hcount
      have hleft : (d - 1).toNat = r.toNat + es.count .msTick := by rw [toNat_sub_one h0]; omega
      have hstep : step (s.counting (oneByOne (.msTick :: es) ++ later) d) =
          .next (s.counting (oneByOne es ++ later) (d - 1)) :=
        step_msTick_wait (nextEvent_single _ _) (if_neg h0) h0
      rw [List.length_cons, run_succ hstep, ih hrest _ _ hleft, List.count_cons_of_ne (by decide)]
    · have hcount : d.toNat = r.toNat + es.count .msTick := by simpa using hd
      have hstep : step (s.counting (oneByOne (.envTick :: es) ++ later) d) =
          .next ((eventEnvTick s).counting (oneByOne es ++ later) d) :=
        step_envTick_counting _ d s
      rw [List.length_cons, run_succ hstep, ih hrest _ _ hcount, List.count_cons_self, Function.iterate_succ_apply]

/-- Envelope strobes alone, in a wait. -/
theorem ticksAlone_counting (k : Nat) (later : List Instant) (d : Millis) (s : State) :
    ticksAlone k (s.counting later d) = .next ((eventEnvTick^[k] s).counting [] d) := by
  have hstrobes : ∀ e ∈ List.replicate k Event.envTick, e = .msTick ∨ e = .envTick :=
    fun e he => .inr (List.eq_of_mem_replicate he)
  have hnone : d.toNat = d.toNat + (List.replicate k Event.envTick).count .msTick := by
    simp [List.count_replicate]
  have hschedule : oneByOne (List.replicate k .envTick) ++ [] = envTicks k := by
    simp [oneByOne, envTicks]
  have hrun := run_counting _ [] hstrobes d s hnone
  rwa [List.length_replicate, List.count_replicate_self, hschedule] at hrun

/-- Ticks take no byte. -/
theorem ticks_take_no_byte (k : Nat) (s : State) :
    (eventEnvTick^[k] s).stream = s.stream ∧ (eventEnvTick^[k] s).pos = s.pos := by
  refine Function.Iterate.rec (fun t : State => t.stream = s.stream ∧ t.pos = s.pos) ⟨rfl, rfl⟩ (fun t ht => ?_) k
  rw [eventEnvTick_frame t]
  exact ht

/-- What is left of a count of `d` after `m` strobes. -/
theorem exists_left {d : Millis} {m : Nat} (h : m ≤ d.toNat) : ∃ r : Millis, d.toNat = r.toNat + m := by
  have hlt : d.toNat - m < 2 ^ 14 := by omega
  exact ⟨BitVec.ofNat 14 (d.toNat - m), by rw [BitVec.toNat_ofNat, Nat.mod_eq_of_lt hlt]; omega⟩

/-- The count is over exactly when all its strobes have passed. -/
theorem left_eq_zero_iff {d r : Millis} {m : Nat} (h : d.toNat = r.toNat + m) : r = 0 ↔ m = d.toNat := by
  rw [← BitVec.toNat_inj, BitVec.ofNat_eq_ofNat, BitVec.toNat_zero]
  omega

/-- Settles O17: `DELAY d` starts the count (`exec_delay_pos`) and its strobes run it down
(`run_counting`). -/
theorem delayLoadsTheCounter : Obligations.DelayLoadsTheCounter := by
  have ne_zero : ∀ {d : Millis}, 0 < d → d ≠ 0 := fun h e => by simp [e] at h
  refine fun s d => ⟨fun h => ?zero, fun h => ?load, fun es later hpos hes hm hsched => ?strobes⟩
  case zero => rw [h]; rfl
  case load =>
    rw [exec_delay_pos (ne_zero h), State.counting, if_neg (ne_zero h)]
    rfl
  case strobes =>
    obtain ⟨r, hr⟩ := exists_left hm
    obtain ⟨hstream, hposition⟩ := ticks_take_no_byte (es.count .envTick) s
    have hrun := run_counting es later hes d s hr
    rw [← hsched] at hrun
    have hready := (counting_inReady later r (eventEnvTick^[es.count .envTick] s)).trans (left_eq_zero_iff hr)
    exact ⟨_, _, exec_delay_pos (ne_zero hpos) s, hrun, hready, hstream, hposition⟩

/-- Settles O22: one strobe by `step_msTick_wait`, many by `run_counting`, the envelope strobes alone by
`ticksAlone_counting`. -/
theorem msTickCountsTheDelayDown : Obligations.MsTickCountsTheDelayDown := by
  refine ⟨fun s later he => ⟨fun hw h0 => ?one, fun hw => step_msTick_outside_wait he hw⟩,
    fun s es later hw h0 hes hm hsched => ?many⟩
  case one =>
    have hleft := toNat_sub_one h0
    refine ⟨_, step_msTick_wait he hw h0, hleft, ?_, rfl⟩
    have hzero : s.delayCtr - 1 = 0 ↔ s.delayCtr.toNat - 1 = 0 := by
      rw [← hleft, ← BitVec.toNat_inj]
      rfl
    simp only [counting_dstate, hzero]
  case many =>
    obtain ⟨r, hr⟩ := exists_left hm
    have hs := eq_counting_of_wait hw h0
    have hrun := run_counting es later hes s.delayCtr s hr
    have halone := ticksAlone_counting (es.count .envTick) s.schedule s.delayCtr s
    rw [← hsched, ← hs] at hrun
    rw [← hs] at halone
    refine ⟨_, _, hrun, halone, by rw [counting_delayCtr]; omega, ?_, rfl⟩
    simp only [counting_dstate, left_eq_zero_iff hr]

end Sys2Proof.Machine
end

section
/-! PROOF. The sustain gate (42_envelope_tick.md R111) and the effect of one envelope tick (R110, R115). -/

namespace Sys2Proof.Machine

/-! ## The sustain gate -/

/-- The gate is open exactly where counter and mask share no bit (42_envelope_tick.md R111). -/
theorem gateOpen_iff (c : BitVec 3) (g : GateMask) : gateOpen c g = true ↔ c &&& g = 0 :=
  decide_eq_true_iff

/-- Phase 0 is open for every mask (42_envelope_tick.md R111). -/
theorem gateOpen_zero (g : GateMask) : gateOpen 0 g = true :=
  (gateOpen_iff 0 g).mpr BitVec.zero_and

/-- Eight consecutive ticks meet every phase once, wherever they start, and each set bit of the
mask halves the number of open ones. -/
theorem openTicks_eight (c : BitVec 3) (g : GateMask) : openTicks 8 c g = 2 ^ (3 - popcount g) := by
  revert c g
  decide

/-- Settles O26: the table by evaluation, the formula and phase 0 by `gateOpen_iff` and `gateOpen_zero`, the
number of open phases as the eight ticks that start at phase 0 (`openTicks_eight`). -/
theorem gateOpensItsPhases : Obligations.GateOpensItsPhases :=
  ⟨by decide, gateOpen_iff, fun g => ⟨gateOpen_zero g, openTicks_eight 0 g⟩⟩

/-! ## One voice of a tick -/

/-- A tick with the counter at `c` moves a voice with the registers `x` (42_envelope_tick.md R110). -/
abbrev Voice.moves (c : BitVec 3) (x : Voice) : Prop := x.att < x.tgt ∧ c &&& x.gate = 0

/-- What a tick with the counter at `c` makes of the registers `x` of a voice. -/
def Voice.ticked (c : BitVec 3) (x : Voice) : Voice :=
  if x.moves c then ⟨x.att + 1, x.tgt, x.gate⟩ else x

/-- The condition of `tickVoice` in terms of the voice's registers and the counter alone. -/
theorem tickVoice_moves_iff (s : State) (v : VoiceIdx) :
    (s.att v < s.tgt v ∧ s.gateOpen v = true) ↔ (s.voice v).moves s.tickCtr :=
  and_congr_right' (gateOpen_iff s.tickCtr (s.gate v))

/-- No voice's share of a tick moves the counter, so all voices meet the value held at the start. -/
@[simp] theorem tickVoice_tickCtr (u : VoiceIdx) (s : State) : (tickVoice u s).tickCtr = s.tickCtr := by
  obtain ⟨-, -, hframe⟩ := tickVoice_spec u s
  rw [hframe]

/-- The registers after one voice's share of a tick. -/
theorem tickVoice_voice (u v : VoiceIdx) (s : State) :
    (tickVoice u s).voice v = if v = u then (s.voice u).ticked s.tickCtr else s.voice v := by
  obtain ⟨hvoice, -, -⟩ := tickVoice_spec u s
  simp only [hvoice, tickVoice_moves_iff, Voice.ticked]

/-- The call of one voice's share of a tick. -/
theorem tickVoice_out (u : VoiceIdx) (s : State) :
    (tickVoice u s).out =
      s.out ++ if (s.voice u).moves s.tickCtr then [.setAttenuation u (s.att u + 1)] else [] := by
  obtain ⟨-, hout, -⟩ := tickVoice_spec u s
  simp only [hout, tickVoice_moves_iff]

/-! ## The tick of all voices -/

/-- The loop of a tick treats every voice by its own registers and the counter at the start. -/
theorem forVoices_tickVoice_voice (s : State) (v : VoiceIdx) :
    (s.forVoices tickVoice).voice v = (s.voice v).ticked s.tickCtr := by
  refine forVoices_voice (fun t => t.tickCtr = s.tickCtr) tickVoice (fun _ => Voice.ticked s.tickCtr)
    (fun u t ht => (tickVoice_tickCtr u t).trans ht) (fun u t w ht => ?_) s rfl v
  rw [tickVoice_voice, ht]

/-- One call for each member of a list that meets a condition: the members that meet it, each mapped. -/
theorem flatMap_ite_singleton {α β : Type} (p : α → Prop) [DecidablePred p] (f : α → β) (l : List α) :
    l.flatMap (fun a => if p a then [f a] else []) = (l.filter (fun a => p a)).map f := by
  induction l with
  | nil => rfl
  | cons a l ih =>
    rw [List.flatMap_cons, ih]
    by_cases h : p a
    · simp [h]
    · simp [h]

/-- The calls of a tick: one for each voice that moves, in ascending order, with its new level. -/
theorem forVoices_tickVoice_out (s : State) :
    (s.forVoices tickVoice).out = s.out ++
      (allVoices.filter (fun v => (s.voice v).moves s.tickCtr)).map (fun v => .setAttenuation v (s.att v + 1)) := by
  rw [← flatMap_ite_singleton]
  refine forVoices_out (fun t => t.tickCtr = s.tickCtr) tickVoice _
    (fun u t ht => (tickVoice_tickCtr u t).trans ht) s (fun u t ht hu => ?calls) (fun u t v _ hv => ?others) rfl
  case calls => rw [tickVoice_out, ht, State.att, hu]
  case others => rw [tickVoice_voice, if_neg hv]

/-- The loop of a tick leaves the counter. -/
theorem forVoices_tickVoice_tickCtr (s : State) : (s.forVoices tickVoice).tickCtr = s.tickCtr :=
  forVoices_frame State.tickCtr tickVoice tickVoice_tickCtr s

/-- An enabled tick is the loop over the voices and then one count. -/
theorem eventEnvTick_enabled {s : State} (h : s.tickEn = true) :
    eventEnvTick s = { s.forVoices tickVoice with tickCtr := s.tickCtr + 1 } := by
  simp only [eventEnvTick, if_pos h, forVoices_tickVoice_tickCtr]

/-- A disabled tick does nothing (42_envelope_tick.md R115). -/
theorem eventEnvTick_disabled {s : State} (h : s.tickEn = false) : eventEnvTick s = s := by
  rw [eventEnvTick, if_neg (by rw [h]; decide)]

/-- Every voice's registers after an enabled tick. -/
theorem eventEnvTick_voice {s : State} (h : s.tickEn = true) (v : VoiceIdx) :
    (eventEnvTick s).voice v = (s.voice v).ticked s.tickCtr := by
  have hvoices : (eventEnvTick s).voices = (s.forVoices tickVoice).voices := by rw [eventEnvTick_enabled h]
  rw [voice_of_voices hvoices, forVoices_tickVoice_voice]

/-- The trace after an enabled tick. -/
theorem eventEnvTick_out {s : State} (h : s.tickEn = true) :
    (eventEnvTick s).out = s.out ++
      (allVoices.filter (fun v => (s.voice v).moves s.tickCtr)).map (fun v => .setAttenuation v (s.att v + 1)) := by
  have hout : (eventEnvTick s).out = (s.forVoices tickVoice).out := by rw [eventEnvTick_enabled h]
  rw [hout, forVoices_tickVoice_out]

/-- The counter after an enabled tick (42_envelope_tick.md R112). -/
theorem eventEnvTick_tickCtr {s : State} (h : s.tickEn = true) : (eventEnvTick s).tickCtr = s.tickCtr + 1 := by
  rw [eventEnvTick_enabled h]

/-- The step that serves an envelope strobe. -/
theorem step_envTick {s : State} {later : List Instant} (he : nextEvent s.schedule = some (.envTick, later)) :
    step s = .next (eventEnvTick { s with schedule := later }) :=
  step_of_event he

/-- Settles O27: registers, trace and counter by the lemmas of an enabled tick, the rest by
`eventEnvTick_frame`; a disabled tick by `eventEnvTick_disabled`. -/
theorem envTickRaisesTheOpenVoices : Obligations.EnvTickRaisesTheOpenVoices := by
  refine fun s later he => ⟨fun h => ⟨_, step_envTick he, ?voices, ?calls, ?counter, ?frame⟩, fun h => ?disabled⟩
  case voices => exact eventEnvTick_voice (s := { s with schedule := later }) h
  case calls => exact eventEnvTick_out (s := { s with schedule := later }) h
  case counter =>
    rw [eventEnvTick_tickCtr (s := { s with schedule := later }) h]
    exact BitVec.toNat_add _ _
  case frame => exact eventEnvTick_frame { s with schedule := later }
  case disabled => rw [step_envTick he, eventEnvTick_disabled (s := { s with schedule := later }) h]

end Sys2Proof.Machine
end

section
/-! PROOF. Exceptions: the teardown (60_exceptions.md R138), the stop (R136), `HALTED` and the way out of it
(R141, R142), the status outputs (R148). -/

namespace Sys2Proof.Machine

/-! ## The teardown -/

/-- A teardown moves level and target of every voice to silence and keeps the gate (60_exceptions.md R138). -/
theorem teardown_voice (s : State) (c : Cause) (v : VoiceIdx) :
    (s.teardown c).voice v = ⟨attSilent, attSilent, s.gate v⟩ :=
  forVoices_voice (fun _ => True) silenceVoice (fun _ x => { x with att := attSilent, tgt := attSilent })
    (fun _ _ _ => trivial) (fun u t w _ => silenceVoice_voice u w t)
    (State.emit { s with tickEn := false } .silenceAll) trivial v

/-- What a teardown writes besides the register file, and that it writes nothing else (60_exceptions.md R138). -/
theorem teardown_frame (s : State) (c : Cause) :
    s.teardown c = { s with
      voices := (s.teardown c).voices, tickEn := false, out := s.out ++ [.silenceAll], delayCtr := 0,
      dstate := .halted, cause := c } := by
  rw [State.teardown, forVoices_voices_only silenceVoice silenceVoice_frame]
  rfl

@[simp] theorem teardown_dstate (s : State) (c : Cause) : (s.teardown c).dstate = .halted := rfl
@[simp] theorem teardown_cause (s : State) (c : Cause) : (s.teardown c).cause = c := rfl
@[simp] theorem teardown_delayCtr (s : State) (c : Cause) : (s.teardown c).delayCtr = 0 := rfl
@[simp] theorem teardown_tickEn (s : State) (c : Cause) : (s.teardown c).tickEn = false := rfl
@[simp] theorem teardown_out (s : State) (c : Cause) : (s.teardown c).out = s.out ++ [.silenceAll] := rfl
@[simp] theorem teardown_tickCtr (s : State) (c : Cause) : (s.teardown c).tickCtr = s.tickCtr := rfl
@[simp] theorem teardown_hi (s : State) (c : Cause) : (s.teardown c).hi = s.hi := rfl
@[simp] theorem teardown_pos (s : State) (c : Cause) : (s.teardown c).pos = s.pos := rfl
@[simp] theorem teardown_stream (s : State) (c : Cause) : (s.teardown c).stream = s.stream := rfl
@[simp] theorem teardown_schedule (s : State) (c : Cause) : (s.teardown c).schedule = s.schedule := rfl
@[simp] theorem teardown_cfg (s : State) (c : Cause) : (s.teardown c).cfg = s.cfg := rfl

/-! ## The stop -/

/-- A stop of a block not yet halted is the teardown (60_exceptions.md R136). -/
theorem eventStop_running {s : State} (hd : s.dstate ≠ .halted) : eventStop s = s.teardown .stop :=
  if_neg hd

/-- A stop of a halted block does nothing (60_exceptions.md R136). -/
theorem eventStop_halted {s : State} (hd : s.dstate = .halted) : eventStop s = s :=
  if_pos hd

/-- Settles O35: the step serves the stop, by `eventStop_running` or `eventStop_halted`. -/
theorem stopTearsDownOnce : Obligations.StopTearsDownOnce := by
  intro s later he
  have hstep : step s = .next (eventStop { s with schedule := later }) := step_of_event he
  refine ⟨fun hd => ?running, fun hd => ?halted⟩
  case running => rw [hstep, eventStop_running (s := { s with schedule := later }) hd]
  case halted => rw [hstep, eventStop_halted (s := { s with schedule := later }) hd]

/-! ## `HALTED` -/

/-- A halted block takes no byte (60_exceptions.md R147). -/
theorem eventByte_halted {s : State} (hd : s.dstate = .halted) : eventByte s = .next s := by
  have hn : s.nextByte = none := nextByte_eq_none.mpr (.inl (by simp [State.inReady, hd]))
  simp only [eventByte, hn]

/-- A halted block sees no end of stream (60_exceptions.md R137). -/
theorem eventEos_halted {s : State} (hd : s.dstate = .halted) : eventEos s = s := by
  simp only [eventEos, hd, ite_self]

/-- A halted block counts no delay (41_command_decoder.md R98). -/
theorem eventMsTick_halted {s : State} (hd : s.dstate = .halted) : eventMsTick s = .next s :=
  if_neg (by rw [hd]; decide)

/-- In `HALTED` every event but a reset and an envelope strobe does nothing (60_exceptions.md R142). -/
theorem applyEvent_halted {s : State} {e : Event} (hd : s.dstate = .halted) (he : e ≠ .reset) :
    applyEvent e s = .next (if e = .envTick then eventEnvTick s else s) := by
  cases e with
  | reset => exact absurd rfl he
  | byte => exact eventByte_halted hd
  | eos => exact congrArg Host.Outcome.next (eventEos_halted hd)
  | msTick => exact eventMsTick_halted hd
  | envTick => rfl
  | stop => exact congrArg Host.Outcome.next (eventStop_halted hd)

/-- A tick leaves the decoder state (42_envelope_tick.md R110). -/
theorem eventEnvTick_dstate (s : State) : (eventEnvTick s).dstate = s.dstate := by
  rw [eventEnvTick_frame]

/-- In `HALTED` every event but a reset leaves the block halted (60_exceptions.md R141). -/
theorem applyEvent_halted_dstate {s t : State} {e : Event} (hd : s.dstate = .halted) (he : e ≠ .reset)
    (h : applyEvent e s = .next t) : t.dstate = .halted := by
  rw [applyEvent_halted hd he] at h
  cases h
  split
  · rw [eventEnvTick_dstate, hd]
  · exact hd

/-- Settles O41: the step out of `HALTED` served an event (`step_next_cases`), and that event is a reset
(`applyEvent_halted_dstate`). -/
theorem haltedIsLeftOnlyByReset : Obligations.HaltedIsLeftOnlyByReset := by
  intro s t hd h hleft
  rcases step_next_cases h with ⟨-, rfl⟩ | ⟨e, later, he, happly⟩
  · exact absurd hd hleft
  · have hreset : e = .reset := by
      by_contra hne
      exact hleft (applyEvent_halted_dstate (s := { s with schedule := later }) hd hne happly)
    subst hreset
    cases happly
    exact ⟨later, he, rfl⟩

/-! ## A halted block whose tick is stopped -/

/-- A step of a halted block with its tick stopped and no reset ahead only uses up the schedule
(60_exceptions.md R142). -/
theorem step_halted {s : State} (hd : s.dstate = .halted) (ht : s.tickEn = false) (hs : noReset s.schedule) :
    ∃ later, noReset later ∧ step s = .next { s with schedule := later } := by
  cases he : nextEvent s.schedule with
  | none => exact ⟨s.schedule, hs, by simp only [step, he]⟩
  | some served =>
    obtain ⟨e, later⟩ := served
    obtain ⟨hne, hlater⟩ := nextEvent_noReset hs he
    have happly := applyEvent_halted (s := { s with schedule := later }) hd hne
    rw [eventEnvTick_disabled (s := { s with schedule := later }) ht, ite_self] at happly
    exact ⟨later, hlater, (step_of_event he).trans happly⟩

/-- A run of such a block, of any length, only uses up the schedule. -/
theorem run_halted (k : Nat) {s : State} (hd : s.dstate = .halted) (ht : s.tickEn = false)
    (hs : noReset s.schedule) : ∃ later, run k s = .next { s with schedule := later } := by
  induction k generalizing s with
  | zero => exact ⟨s.schedule, rfl⟩
  | succ k ih =>
    obtain ⟨later, hlater, hstep⟩ := step_halted hd ht hs
    rw [run_succ hstep]
    exact ih (s := { s with schedule := later }) hd ht hlater

/-- Settles O34: the registers by `teardown_voice`, the rest by `teardown_frame`; the halted block it leaves
adds no call (`run_halted`). -/
theorem teardownSilencesAndHalts : Obligations.TeardownSilencesAndHalts := by
  refine fun s c => ⟨teardown_voice s c, teardown_frame s c, fun hs k => ?last⟩
  case last =>
    obtain ⟨later, hrun⟩ := run_halted k (teardown_dstate s c) (teardown_tickEn s c) hs
    exact ⟨_, hrun, teardown_out s c⟩

/-! ## The status outputs -/

/-- `fault` is set exactly by the two fault codes (60_exceptions.md R148, 10_state.md R23). -/
theorem fault_iff (s : State) : s.fault = true ↔ s.cause = .fTrunc ∨ s.cause = .fTag := by
  unfold State.fault
  cases s.cause <;> decide

/-- Settles O55: `fault` by `fault_iff`, the ready line by `inReady_iff`, the others as they are defined. -/
theorem statusOutputs : Obligations.StatusOutputs := by
  refine fun s => ⟨decide_eq_true_iff, rfl, ?codes, fault_iff s, inReady_iff s⟩
  case codes =>
    unfold State.causeBits
    cases s.cause <;> rfl

end Sys2Proof.Machine
end

section
/-! PROOF. What a served `RESET` leaves (70_reset_and_hazards.md R160). -/

namespace Sys2Proof.Machine

/-- A reset, from any state, leaves every voice as it stands after reset (70_reset_and_hazards.md R160). -/
@[simp] theorem resetBlock_voice (s : State) (v : VoiceIdx) :
    s.resetBlock.voice v = ⟨attSilent, attSilent, 0⟩ :=
  voice_reset v

/-- A step that serves a reset answers the reset block, with what is still scheduled kept. -/
theorem step_reset {s : State} {later : List Instant} (he : nextEvent s.schedule = some (.reset, later)) :
    step s = .next (State.resetBlock { s with schedule := later }) :=
  step_of_event he

/-- Settles O37: the step answers the reset block (`step_reset`), whose voices are those of
`resetBlock_voice` and whose other registers are those of `State.reset` (`resetStateValues`). -/
theorem resetRestoresEveryRegister : Obligations.ResetRestoresEveryRegister := by
  intro s later he
  obtain ⟨-, htickCtr, hdelayCtr, hdstate, hhi, htickEn, hcause, hpos, hout⟩ := resetStateValues
  exact ⟨_, step_reset he, resetBlock_voice _, htickCtr, hdelayCtr, hdstate, hhi, htickEn, hcause, hpos, hout⟩

end Sys2Proof.Machine
end

section
/-! PROOF. Decoding and encoding of command words are inverse but for the reserved bits (30_encoding.md R67 to
R70), the rows of the opcode map (R74), lines of source (R71, R72) and the streams they assemble to (R73). -/

namespace Sys2Proof.Laws

/-! ## The four tags -/

/-- A word has one of the four tags (30_encoding.md R61). -/
theorem tag_cases (w : Word) :
    field w 14 2 = 0b00#2 ∨ field w 14 2 = 0b01#2 ∨ field w 14 2 = 0b10#2 ∨ field w 14 2 = 0b11#2 := by
  generalize field w 14 2 = tag
  revert tag
  decide

/-- What a word with the tag of a note-on decodes to (30_encoding.md R67). -/
theorem decodeWord_of_tag_note {w : Word} (h : field w 14 2 = 0b00#2) :
    decodeWord w = .note (field w 11 3) (field w 7 4) (field w 0 7) := by
  obtain ⟨h15, h14⟩ := tag_bits w
  rw [h] at h15 h14
  simp [decodeWord, h15, h14]

/-- What a word with the tag of a delay decodes to (30_encoding.md R67). -/
theorem decodeWord_of_tag_delay {w : Word} (h : field w 14 2 = 0b10#2) : decodeWord w = .delay (field w 0 14) := by
  obtain ⟨h15, h14⟩ := tag_bits w
  rw [h] at h15 h14
  simp [decodeWord, h15, h14]

/-- A tag as the range of the word's value. -/
theorem tag_of_range {w : Word} {tag : BitVec 2} (h : w.toNat / 0x4000 = tag.toNat) : field w 14 2 = tag :=
  field_eq_of_toNat (by omega)

/-- A field as a division and a remainder of the word's value. -/
theorem field_eq_ofNat (w : Word) (lo width : Nat) : field w lo width = BitVec.ofNat width (w.toNat / 2 ^ lo) :=
  field_eq_of_toNat (BitVec.toNat_ofNat _ _).symm

/-- A field that starts at bit 0 as a remainder of the word's value. -/
theorem field_zero_eq_ofNat (w : Word) (width : Nat) : field w 0 width = BitVec.ofNat width w.toNat := by
  rw [field_eq_ofNat, Nat.pow_zero, Nat.div_one]

/-- Settles O1: the decoder evaluated on the six words. -/
theorem decodeOfWrittenOutWords : Obligations.DecodeOfWrittenOutWords := by
  unfold Obligations.DecodeOfWrittenOutWords
  decide

/-- Settles O2: the range gives the tag (`tag_of_range`), the tag the command, and every field is a division
and a remainder (`field_eq_ofNat`). -/
theorem decodeReadsTagAndFields : Obligations.DecodeReadsTagAndFields := by
  refine fun w => ⟨fun hhi => ?note, fun hlo hhi => ?noise, fun hlo hhi => ?delay, fun hlo => ?off⟩
  case note =>
    have htag : field w 14 2 = 0b00#2 := tag_of_range (by simp only [BitVec.toNat_ofNat]; omega)
    simp only [decodeWord_of_tag_note htag, field_eq_ofNat, Nat.pow_zero, Nat.div_one]
  case noise =>
    have htag : field w 14 2 = 0b01#2 := tag_of_range (by simp only [BitVec.toNat_ofNat]; omega)
    simp only [decodeWord_of_tag_noise htag, field_eq_ofNat, Nat.pow_zero, Nat.div_one]
  case delay =>
    have htag : field w 14 2 = 0b10#2 := tag_of_range (by simp only [BitVec.toNat_ofNat]; omega)
    rw [decodeWord_of_tag_delay htag, field_zero_eq_ofNat]
  case off =>
    have htag : field w 14 2 = 0b11#2 := tag_of_range (by simp only [BitVec.toNat_ofNat]; omega)
    rw [decodeWord_of_tag_off htag, field_zero_eq_ofNat]

/-! ## Decode after encode -/

/-- The canonical word of a command decodes to it. -/
theorem decodeWord_encode (i : Instr) : decodeWord (encode i) = i := by
  cases i with
  | note v a n =>
    obtain ⟨hv, ha, hn⟩ := encode_note_fields v a n
    rw [decodeWord_of_tag_note (tag_encode _), hv, ha, hn]
  | noise s m a t =>
    obtain ⟨-, hs, hm, ha, ht⟩ := encode_noise_fields s m a t
    rw [decodeWord_of_tag_noise (tag_encode _), hs, hm, ha, ht]
  | delay d => rw [decodeWord_of_tag_delay (tag_encode _), encode_delay_field]
  | off k =>
    obtain ⟨-, hk⟩ := encode_off_fields k
    rw [decodeWord_of_tag_off (tag_encode _), hk]

/-- A word is put together again from its two bytes (20_memory.md R42). -/
theorem wordOfBytes_bytes (w : Word) : wordOfBytes (highByte w) (lowByte w) = w :=
  BitVec.extractLsb'_append_extractLsb'_eq_extractLsb' (by rfl) |>.trans BitVec.extractLsb'_eq_self

/-- The bytes of a command with anything behind them hold its high byte and its low byte first. -/
theorem encodeBytes_append (i : Instr) (rest : List Byte) :
    encodeBytes i ++ rest = highByte (encode i) :: lowByte (encode i) :: rest := rfl

/-- The two bytes of a command decode to it. -/
theorem decodeWord_bytes (i : Instr) :
    decodeWord (wordOfBytes (highByte (encode i)) (lowByte (encode i))) = i := by
  rw [wordOfBytes_bytes, decodeWord_encode]

/-- Settles O4: `decodeWord_bytes` at the first two bytes. -/
theorem decodeAfterEncode : Obligations.DecodeAfterEncode := by
  intro i rest
  rw [encodeBytes_append, decode, decodeWord_bytes]

/-! ## Encode after decode -/

/-- Two adjacent fields determine the field they make up. -/
theorem field_glue {w x : Word} {lo m n : Nat} (hlow : field w lo m = field x lo m)
    (hhigh : field w (lo + m) n = field x (lo + m) n) : field w lo (m + n) = field x lo (m + n) := by
  have split : ∀ y : Word, y.toNat / 2 ^ lo % 2 ^ (m + n) =
      y.toNat / 2 ^ lo % 2 ^ m + 2 ^ m * (y.toNat / 2 ^ (lo + m) % 2 ^ n) := by
    intro y
    rw [pow_add, Nat.mod_mul, Nat.div_div_eq_div_mul, ← pow_add]
  apply field_eq_of_toNat
  have hl := congrArg BitVec.toNat hlow
  have hh := congrArg BitVec.toNat hhigh
  simp only [field_toNat] at hl hh ⊢
  rw [split w, split x, hl, hh]

/-- A word is its tag and the fourteen bits below it. -/
theorem eq_of_tag_of_rest {w x : Word} (htag : field w 14 2 = field x 14 2) (hrest : field w 0 14 = field x 0 14) :
    w = x := by
  have hall : field w 0 16 = field x 0 16 := field_glue (m := 14) (n := 2) hrest htag
  simpa only [field, BitVec.extractLsb'_eq_self] using hall

/-- A field of a masked word where the mask holds ones. -/
theorem field_eq_and_of_ones {w x mask : Word} {lo width : Nat} (h : field x lo width = field w lo width)
    (hmask : field mask lo width = BitVec.allOnes width) : field x lo width = field (w &&& mask) lo width := by
  rw [h, field_and, hmask, BitVec.and_allOnes]

/-- A field of a masked word where the mask holds zeros. -/
theorem field_eq_and_of_zeros {w x mask : Word} {lo width : Nat} (h : field x lo width = 0#width)
    (hmask : field mask lo width = 0#width) : field x lo width = field (w &&& mask) lo width := by
  rw [h, field_and, hmask, BitVec.and_zero]

/-- The used bits of a note-on word: all (30_encoding.md R62). -/
theorem usedBits_of_tag_note {w : Word} (h : field w 14 2 = 0b00#2) : usedBits w = 0xFFFF := by
  rw [usedBits, and_tagMask, h]
  rfl

/-- The used bits of a noise-on word: all but w[13:11] (30_encoding.md R63). -/
theorem usedBits_of_tag_noise {w : Word} (h : field w 14 2 = 0b01#2) : usedBits w = 0xC7FF := by
  rw [usedBits, and_tagMask, h]
  rfl

/-- The used bits of a delay word: all (30_encoding.md R64). -/
theorem usedBits_of_tag_delay {w : Word} (h : field w 14 2 = 0b10#2) : usedBits w = 0xFFFF := by
  rw [usedBits, and_tagMask, h]
  rfl

/-- The used bits of a release word: all but w[13:8] (30_encoding.md R65). -/
theorem usedBits_of_tag_off {w : Word} (h : field w 14 2 = 0b11#2) : usedBits w = 0xC0FF := by
  rw [usedBits, and_tagMask, h]
  rfl

/-- Encoding what a word decodes to clears the word's reserved bits: field by field along its format. -/
theorem encode_decodeWord (w : Word) : encode (decodeWord w) = w &&& usedBits w := by
  rcases tag_cases w with h | h | h | h
  case inl =>
    rw [decodeWord_of_tag_note h, usedBits_of_tag_note h]
    obtain ⟨hv, ha, hn⟩ := encode_note_fields (field w 11 3) (field w 7 4) (field w 0 7)
    refine eq_of_tag_of_rest (field_eq_and_of_ones ((tag_encode _).trans h.symm) rfl) ?_
    refine field_glue (m := 11) (n := 3) ?_ (field_eq_and_of_ones hv rfl)
    exact field_glue (m := 7) (n := 4) (field_eq_and_of_ones hn rfl) (field_eq_and_of_ones ha rfl)
  case inr.inl =>
    rw [decodeWord_of_tag_noise h, usedBits_of_tag_noise h]
    obtain ⟨hreserved, hs, hm, ha, ht⟩ :=
      encode_noise_fields (field w 10 1) (field w 7 3) (field w 3 4) (field w 0 3)
    refine eq_of_tag_of_rest (field_eq_and_of_ones ((tag_encode _).trans h.symm) rfl) ?_
    refine field_glue (m := 11) (n := 3) ?_ (field_eq_and_of_zeros hreserved rfl)
    refine field_glue (m := 10) (n := 1) ?_ (field_eq_and_of_ones hs rfl)
    refine field_glue (m := 7) (n := 3) ?_ (field_eq_and_of_ones hm rfl)
    exact field_glue (m := 3) (n := 4) (field_eq_and_of_ones ht rfl) (field_eq_and_of_ones ha rfl)
  case inr.inr.inl =>
    rw [decodeWord_of_tag_delay h, usedBits_of_tag_delay h]
    exact eq_of_tag_of_rest (field_eq_and_of_ones ((tag_encode _).trans h.symm) rfl)
      (field_eq_and_of_ones (encode_delay_field _) rfl)
  case inr.inr.inr =>
    rw [decodeWord_of_tag_off h, usedBits_of_tag_off h]
    obtain ⟨hreserved, hk⟩ := encode_off_fields (field w 0 8)
    refine eq_of_tag_of_rest (field_eq_and_of_ones ((tag_encode _).trans h.symm) rfl) ?_
    exact field_glue (m := 8) (n := 6) (field_eq_and_of_ones hk rfl) (field_eq_and_of_zeros hreserved rfl)

/-- Settles O5: the first part is `encode_decodeWord`; by it two words that agree but for their reserved bits
have the same canonical word, which decodes to one command (`decodeWord_encode`). -/
theorem encodeAfterDecodeIsCanonical : Obligations.EncodeAfterDecodeIsCanonical := by
  refine ⟨encode_decodeWord, fun w x => ⟨fun h => ?same, fun h => ?agree⟩⟩
  case same => rw [← encode_decodeWord, h, encode_decodeWord]
  case agree =>
    rw [← encode_decodeWord, ← encode_decodeWord] at h
    calc decodeWord w = decodeWord (encode (decodeWord w)) := (decodeWord_encode _).symm
      _ = decodeWord (encode (decodeWord x)) := by rw [h]
      _ = decodeWord x := decodeWord_encode _

/-! ## The opcode map -/

/-- A row of the opcode map covers the words with its tag. -/
theorem covers_eq_tag {r : OpcodeRow} (hr : r ∈ opcodeMap) (w : Word) :
    r.covers w = decide ((field w 14 2).setWidth 16 <<< 14 = r.matchBits) := by
  have hmask : ∀ r ∈ opcodeMap, r.maskBits = 0xC000 := by decide
  rw [OpcodeRow.covers, hmask r hr, and_tagMask]

/-- The mnemonics of the rows with a tag: one. -/
theorem rows_of_tag {w : Word} {tag : BitVec 2} {mnemonic : String} (h : field w 14 2 = tag)
    (hrows : (opcodeMap.filter (fun r => tag.setWidth 16 <<< 14 = r.matchBits)).map OpcodeRow.mnemonic =
      [mnemonic]) :
    (opcodeMap.filter (fun r => r.covers w)).map OpcodeRow.mnemonic = [mnemonic] := by
  rw [List.filter_congr (fun r hr => covers_eq_tag hr w), h, hrows]

/-- Settles O7: the rows cover by the tag (`rows_of_tag`), and the tag fixes the command. -/
theorem opcodeRowsPartitionTheWords : Obligations.OpcodeRowsPartitionTheWords := by
  intro w
  rcases tag_cases w with h | h | h | h
  case inl => rw [decodeWord_of_tag_note h]; exact rows_of_tag h rfl
  case inr.inl => rw [decodeWord_of_tag_noise h]; exact rows_of_tag h rfl
  case inr.inr.inl => rw [decodeWord_of_tag_delay h]; exact rows_of_tag h rfl
  case inr.inr.inr => rw [decodeWord_of_tag_off h]; exact rows_of_tag h rfl

/-! ## Lines of source -/

/-- The bytes of a command whose word has the value `n`, high byte first. -/
theorem encodeBytes_of_toNat {i : Instr} {n : Nat} (h : (encode i).toNat = n) :
    encodeBytes i = [BitVec.ofNat 8 (n / 256), BitVec.ofNat 8 n] := by
  rw [encodeBytes, wordBytes, highByte, lowByte, field_eq_ofNat, field_zero_eq_ofNat, h]
  rfl

/-- One line that stands for one command assembles to that command's bytes. -/
theorem assemble_single {l : SourceLine} {i : Instr} (h : assembleLine l = some [i]) :
    assemble [l] = some (encodeBytes i) := by
  simp only [assemble, h, List.flatMap_cons, List.flatMap_nil, List.append_nil]

/-- One line out of range is refused. -/
theorem assemble_single_refused {l : SourceLine} (h : l.wellFormed = false) : assemble [l] = none := by
  simp only [assemble, assembleLine, h, Bool.false_eq_true, if_false]

/-- Bytes are known by the remainders of their values. -/
theorem ofNat_byte_eq {m n : Nat} (h : m % 256 = n % 256) : BitVec.ofNat 8 m = BitVec.ofNat 8 n :=
  BitVec.eq_of_toNat_eq (by simpa only [BitVec.toNat_ofNat] using h)

/-- Settles O8: a line in range assembles to its command's bytes (`assemble_single`), whose word's value is
the sum of its format, every operand below the bound of its field; a line out of range is refused. -/
theorem notationAssemblesInRangeLines : Obligations.NotationAssemblesInRangeLines := by
  refine ⟨fun v a n => ?note, fun s m a t => ?noise, fun d => ?delay, fun k => ?off⟩
  case note =>
    have hwf : (SourceLine.note v a n).wellFormed = true ↔ v ≤ 7 ∧ a ≤ 15 ∧ n ≤ 127 := by
      simp [SourceLine.wellFormed, and_assoc]
    split
    · next h =>
      have hsum : (encode (.note (BitVec.ofNat 3 v) (BitVec.ofNat 4 a) (BitVec.ofNat 7 n))).toNat =
          v * 2048 + a * 128 + n := by
        simp only [encode_note_toNat, BitVec.toNat_ofNat]
        omega
      rw [assemble_single (if_pos (hwf.mpr h)), encodeBytes_of_toNat hsum]
    · next h => exact assemble_single_refused (Bool.eq_false_iff.mpr (mt hwf.mp h))
  case noise =>
    have hwf : (SourceLine.noise s m a t).wellFormed = true ↔ s ≤ 1 ∧ m ≤ 7 ∧ a ≤ 15 ∧ t ≤ 7 := by
      simp [SourceLine.wellFormed, and_assoc]
    split
    · next h =>
      have hsum : (encode (.noise (BitVec.ofNat 1 s) (BitVec.ofNat 3 m) (BitVec.ofNat 4 a)
          (BitVec.ofNat 3 t))).toNat = 0x4000 + s * 1024 + m * 128 + a * 8 + t := by
        simp only [encode_noise_toNat, BitVec.toNat_ofNat]
        omega
      have hlow : BitVec.ofNat 8 (0x4000 + s * 1024 + m * 128 + a * 8 + t) =
          BitVec.ofNat 8 (s * 1024 + m * 128 + a * 8 + t) := ofNat_byte_eq (by omega)
      rw [assemble_single (if_pos (hwf.mpr h)), encodeBytes_of_toNat hsum, hlow]
    · next h => exact assemble_single_refused (Bool.eq_false_iff.mpr (mt hwf.mp h))
  case delay =>
    have hwf : (SourceLine.delay d).wellFormed = true ↔ d ≤ 16383 := decide_eq_true_iff
    split
    · next h =>
      have hsum : (encode (.delay (BitVec.ofNat 14 d))).toNat = 0x8000 + d := by
        simp only [encode_delay_toNat, BitVec.toNat_ofNat]
        omega
      have hlow : BitVec.ofNat 8 (0x8000 + d) = BitVec.ofNat 8 d := ofNat_byte_eq (by omega)
      rw [assemble_single (if_pos (hwf.mpr h)), encodeBytes_of_toNat hsum, hlow]
    · next h => exact assemble_single_refused (Bool.eq_false_iff.mpr (mt hwf.mp h))
  case off =>
    have hwf : (SourceLine.off k).wellFormed = true ↔ k ≤ 255 := decide_eq_true_iff
    split
    · next h =>
      have hsum : (encode (.off (BitVec.ofNat 8 k))).toNat = 0xC000 + k := by
        simp only [encode_off_toNat, BitVec.toNat_ofNat]
        omega
      have hhigh : BitVec.ofNat 8 ((0xC000 + k) / 256) = BitVec.ofNat 8 0xC0 := ofNat_byte_eq (by omega)
      have hlow : BitVec.ofNat 8 (0xC000 + k) = BitVec.ofNat 8 k := ofNat_byte_eq (by omega)
      rw [assemble_single (if_pos (hwf.mpr h)), encodeBytes_of_toNat hsum, hhigh, hlow]
      rfl
    · next h => exact assemble_single_refused (Bool.eq_false_iff.mpr (mt hwf.mp h))

/-! ## The pseudo-instructions -/

/-- The fields of the delay words `WAIT T` stands for (30_encoding.md R72). -/
def waitFields (T : Nat) : List Millis :=
  List.replicate (T / delayMax) 16383 ++ if T % delayMax = 0 then [] else [BitVec.ofNat 14 (T % delayMax)]

/-- `WAIT T` is the delays of those fields. -/
theorem waitWords_eq_fields (T : Nat) : waitWords T = (waitFields T).map Instr.delay := by
  unfold waitWords waitFields
  rw [List.map_append, List.map_replicate]
  split <;> rfl

/-- The remainder fits the field of a delay. -/
theorem toNat_remainder (T : Nat) : (BitVec.ofNat 14 (T % delayMax)).toNat = T % delayMax := by
  rw [BitVec.toNat_ofNat, Nat.mod_eq_of_lt (Nat.lt_trans (Nat.mod_lt T (by decide)) (by decide))]

theorem waitFields_sum (T : Nat) : ((waitFields T).map BitVec.toNat).sum = T := by
  have hlongest : (16383 : Millis).toNat = delayMax := rfl
  have hdivision : T / delayMax * delayMax + T % delayMax = T := Nat.div_add_mod' T delayMax
  unfold waitFields
  rw [List.map_append, List.sum_append, List.map_replicate, List.sum_replicate, hlongest, smul_eq_mul]
  split
  · next h => simpa only [h, List.map_nil, List.sum_nil] using hdivision
  · simpa only [List.map_cons, List.map_nil, List.sum_singleton, toNat_remainder] using hdivision

theorem waitFields_ne_zero {T : Nat} {d : Millis} (hd : d ∈ waitFields T) : d ≠ 0 := by
  rcases List.mem_append.mp hd with hlongest | hlast
  · rw [List.eq_of_mem_replicate hlongest]
    decide
  · rintro rfl
    split at hlast
    · simp at hlast
    · next h => exact h (by rw [← toNat_remainder, ← List.mem_singleton.mp hlast]; rfl)

theorem waitFields_dropLast {T : Nat} {d : Millis} (hd : d ∈ (waitFields T).dropLast) : d = 16383 := by
  have hlongest : d ∈ List.replicate (T / delayMax) (16383 : Millis) := by
    unfold waitFields at hd
    split at hd
    · exact List.mem_of_mem_dropLast (by simpa using hd)
    · rwa [List.dropLast_concat] at hd
  exact List.eq_of_mem_replicate hlongest

/-- Settles O9: the delays are those of `waitFields`; the other two lines by definition. -/
theorem pseudoInstructionsExpand : Obligations.PseudoInstructionsExpand :=
  ⟨fun T => ⟨waitFields T, congrArg some (waitWords_eq_fields T), waitFields_sum T,
    fun _ => waitFields_ne_zero, fun _ => waitFields_dropLast⟩, rfl, rfl⟩

/-! ## Streams -/

/-- An encoded word is canonical (30_encoding.md R70). -/
theorem canonicalWord_encode (i : Instr) : canonicalWord (encode i) = true := by
  have hclear := encode_decodeWord (encode i)
  rw [decodeWord_encode] at hclear
  exact decide_eq_true hclear.symm

/-- Commands written one after the other are a stream a producer may send. -/
theorem streamWellFormed_flatMap (is : List Instr) {rest : List Byte} (hrest : streamWellFormed rest = true) :
    streamWellFormed (is.flatMap encodeBytes ++ rest) = true := by
  induction is with
  | nil => exact hrest
  | cons i is ih =>
    have hword : highByte (encode i) ++ lowByte (encode i) = encode i := wordOfBytes_bytes (encode i)
    rw [List.flatMap_cons, List.append_assoc, encodeBytes_append, streamWellFormed, hword, canonicalWord_encode, ih]
    rfl

/-- A stream a producer may send has an even number of bytes. -/
theorem length_even_of_streamWellFormed :
    ∀ {bytes : List Byte}, streamWellFormed bytes = true → bytes.length % 2 = 0
  | [], _ => rfl
  | _ :: _ :: rest, h => by
    rw [streamWellFormed, Bool.and_eq_true] at h
    obtain ⟨-, hrest⟩ := h
    rw [List.length_cons, List.length_cons, Nat.add_assoc, Nat.add_mod_right]
    exact length_even_of_streamWellFormed hrest

/-- What lines of source assemble to is a stream a producer may send: line by line. -/
theorem streamWellFormed_assemble {lines : List SourceLine} {bytes : List Byte}
    (h : assemble lines = some bytes) : streamWellFormed bytes = true := by
  induction lines generalizing bytes with
  | nil => cases h; rfl
  | cons l ls ih =>
    rw [assemble] at h
    split at h
    · next is rest _ hls => cases h; exact streamWellFormed_flatMap is (ih hls)
    · cases h

/-- Settles O10: `streamWellFormed_assemble`, and its length by `length_even_of_streamWellFormed`. -/
theorem assembledStreamIsWellFormed : Obligations.AssembledStreamIsWellFormed := fun _ _ h =>
  ⟨streamWellFormed_assemble h, length_even_of_streamWellFormed (streamWellFormed_assemble h)⟩

end Sys2Proof.Laws
end

section
/-! PROOF. What a command makes of each voice, of the trace and of the decoder, said once for all four commands
(41_command_decoder.md R94 to R97), and what follows: what no command reaches (R144), the independence of the
voices (R102), the phases commands enter (42_envelope_tick.md R117). -/

namespace Sys2Proof.Machine

/-! ## The effect of a command -/

/-- What a command makes of the registers `x` of voice `v`. -/
def commandVoice (c : Config) (i : Instr) (v : VoiceIdx) (x : Voice) : Voice :=
  match i with
  | .note u a _ => if v = u then ⟨a, releaseTarget a c.drop, c.toneGate⟩ else x
  | .noise side m a _ => if v = noiseLane c side then ⟨a, attSilent, m⟩ else x
  | .delay _ => x
  | .off k => released k v x

theorem commandVoice_note (c : Config) (u v : VoiceIdx) (a : Level) (n : NoteNum) (x : Voice) :
    commandVoice c (.note u a n) v x = if v = u then ⟨a, releaseTarget a c.drop, c.toneGate⟩ else x := rfl

theorem commandVoice_noise (c : Config) (side : Side) (m : GateMask) (a : Level) (t : NoiseType) (v : VoiceIdx)
    (x : Voice) :
    commandVoice c (.noise side m a t) v x = if v = noiseLane c side then ⟨a, attSilent, m⟩ else x := rfl

theorem commandVoice_off (c : Config) (k : VoiceMask) (v : VoiceIdx) (x : Voice) :
    commandVoice c (.off k) v x = released k v x := rfl

/-- The calls a command issues. -/
def commandCalls (c : Config) (i : Instr) : List Call :=
  match i with
  | .note v a n => [.setFrequency v (freqLut c n), .setAttenuation v a]
  | .noise side _ a t => [.setNoise (noiseLane c side) t, .setAttenuation (noiseLane c side) a]
  | .delay _ => []
  | .off _ => []

/-- The state `t` is what the command `i` makes of `s`: every voice, the trace, the decoder, and nothing else. -/
structure CommandEffect (i : Instr) (s t : State) : Prop where
  voice : ∀ v, t.voice v = commandVoice s.cfg i v (s.voice v)
  out : t.out = s.out ++ commandCalls s.cfg i
  delayCtr : t.delayCtr = if delayOf i = 0 then s.delayCtr else delayOf i
  dstate : t.dstate = if delayOf i = 0 then s.dstate else .wait
  frame : t = { s with voices := t.voices, out := t.out, delayCtr := t.delayCtr, dstate := t.dstate }

/-- A strike has the effect of the command that is this strike. -/
theorem commandEffect_strike {i : Instr} {s : State} {v : VoiceIdx} {sound : Call} {x : Voice}
    (hdelay : delayOf i = 0) (hvoice : ∀ u y, commandVoice s.cfg i u y = if u = v then x else y)
    (hcalls : commandCalls s.cfg i = [sound, .setAttenuation v x.att]) :
    CommandEffect i s (s.strike v sound x) := by
  obtain ⟨hv, hout, -⟩ := strike_spec s v sound x
  exact { voice := fun u => by rw [hv, hvoice]
          out := by rw [hout, hcalls]
          delayCtr := (if_pos hdelay).symm
          dstate := (if_pos hdelay).symm
          frame := rfl }

/-- Every command completes in every state, with its effect. -/
theorem exec_effect (i : Instr) (s : State) : ∃ t, exec i s = .next t ∧ CommandEffect i s t := by
  cases i with
  | note v a n => exact ⟨_, rfl, commandEffect_strike rfl (fun _ _ => rfl) rfl⟩
  | noise side m a t => exact ⟨_, rfl, commandEffect_strike rfl (fun _ _ => rfl) rfl⟩
  | delay d =>
    refine ⟨_, rfl, ?_⟩
    by_cases h : d = 0
    · rw [if_pos h]
      exact ⟨fun _ => rfl, (List.append_nil _).symm, (if_pos h).symm, (if_pos h).symm, rfl⟩
    · rw [if_neg h]
      exact ⟨fun _ => rfl, (List.append_nil _).symm, (if_neg h).symm, (if_neg h).symm, rfl⟩
  | off k =>
    have hframe := forVoices_voices_only _ (releaseMasked_frame k) s
    refine ⟨_, rfl, forVoices_releaseMasked_voice k s, ?out, ?delayCtr, ?dstate, ?frame⟩
    case out => rw [hframe]; exact (List.append_nil _).symm
    case delayCtr => rw [hframe]; rfl
    case dstate => rw [hframe]; rfl
    case frame => rw [hframe]

/-- What a command answers is its effect. -/
theorem effect_of_exec {i : Instr} {s t : State} (h : exec i s = .next t) : CommandEffect i s t := by
  obtain ⟨u, hu, heffect⟩ := exec_effect i s
  rw [h] at hu
  cases hu
  exact heffect

/-! ## What no command reaches -/

/-- Settles O19: the frame of the effect (`effect_of_exec`); of the four commands only a delay has a delay, and
delays and releases issue no call. -/
theorem commandsReachOnlyTheirState : Obligations.CommandsReachOnlyTheirState := by
  intro i s t h
  have e := effect_of_exec h
  have hdelay : (∀ d, i ≠ .delay d) → delayOf i = 0 := by
    cases i with
    | delay d => exact fun hne => absurd rfl (hne d)
    | note v a n => exact fun _ => rfl
    | noise side m a ty => exact fun _ => rfl
    | off k => exact fun _ => rfl
  have hcontrol : (∀ d, i ≠ .delay d) → t.dstate = s.dstate ∧ t.delayCtr = s.delayCtr := fun hne =>
    ⟨e.dstate.trans (if_pos (hdelay hne)), e.delayCtr.trans (if_pos (hdelay hne))⟩
  have hsilent : commandCalls s.cfg i = [] → t.out = s.out := fun hnone => by
    rw [e.out, hnone, List.append_nil]
  have hvoices : ∀ d, i = .delay d → t.voices = s.voices ∧ t.out = s.out := by
    rintro d rfl
    exact ⟨voices_ext e.voice, hsilent rfl⟩
  have hrelease : ∀ k, i = .off k → t.out = s.out := by
    rintro k rfl
    exact hsilent rfl
  refine ⟨?_, ?_, ?_, ?_, ?_, ?_, ?_, ?_, hcontrol, hvoices, hrelease⟩ <;> rw [e.frame]

/-! ## Independence of the voices -/

/-- A command leaves the registers of a voice it does not name. -/
theorem commandVoice_of_not_named {c : Config} {i : Instr} {v : VoiceIdx} (h : namesVoice c i v = false)
    (x : Voice) : commandVoice c i v x = x := by
  cases i with
  | note u a n => exact if_neg (Ne.symm (of_decide_eq_false h))
  | noise side m a t => exact if_neg (Ne.symm (of_decide_eq_false h))
  | delay d => rfl
  | off k => exact if_neg (Bool.eq_false_iff.mp h)

/-- A command issues no call about a voice it does not name. -/
theorem commandCalls_of_not_named {c : Config} {i : Instr} {v : VoiceIdx} (h : namesVoice c i v = false) :
    (commandCalls c i).filter (concerns v) = [] := by
  cases i with
  | note u a n =>
    have hne : u ≠ v := of_decide_eq_false h
    simp [commandCalls, concerns, hne]
  | noise side m a t =>
    have hne : noiseLane c side ≠ v := of_decide_eq_false h
    simp [commandCalls, concerns, hne]
  | delay d => rfl
  | off k => rfl

/-- Settles O20: what a command leaves in a voice is a function of the configuration and of that voice's
registers (`commandVoice`), which changes only the voices the command names. -/
theorem voicesAreIndependent : Obligations.VoicesAreIndependent := by
  refine ⟨fun i s t v hname h => ⟨?registers, ?calls⟩, fun i s s' t t' v hcfg hv h h' => ?depends⟩
  case registers => rw [(effect_of_exec h).voice, commandVoice_of_not_named hname]
  case calls => rw [(effect_of_exec h).out, List.filter_append, commandCalls_of_not_named hname, List.append_nil]
  case depends => rw [(effect_of_exec h).voice, (effect_of_exec h').voice, hcfg, hv]

/-! ## The phases commands enter -/

/-- A level below another is not that level. -/
theorem level_ne_of_lt {a b : Level} (h : a < b) : a ≠ b := by
  rintro rfl
  exact BitVec.lt_irrefl a h

theorem phase_idle_iff (x : Voice) : x.phase = .idle ↔ x.att = attSilent := by
  unfold Voice.phase
  split_ifs <;> simp_all

theorem phase_releasing_iff (x : Voice) : x.phase = .releasing ↔ x.att ≠ attSilent ∧ x.tgt = attSilent := by
  unfold Voice.phase
  split_ifs <;> simp_all

theorem phase_sounding_iff (x : Voice) : x.phase = .sounding ↔ x.att ≠ attSilent ∧ x.tgt ≠ attSilent := by
  unfold Voice.phase
  split_ifs <;> simp_all

theorem subPhase_decaying_iff (x : Voice) :
    x.subPhase = some .decaying ↔ x.phase = .sounding ∧ x.att < x.tgt := by
  unfold Voice.subPhase
  split_ifs <;> simp_all

theorem subPhase_holding_iff (x : Voice) :
    x.subPhase = some .holding ↔ x.phase = .sounding ∧ x.att = x.tgt := by
  unfold Voice.subPhase
  split_ifs with hphase hlt heq
  · simp [level_ne_of_lt hlt]
  · simp [hphase, heq]
  · simp [heq]
  · simp [hphase]

theorem silent_toNat : attSilent.toNat = 15 := rfl

/-- The target of a note-on is silence exactly where the sum saturates. -/
theorem releaseTarget_eq_silent_iff (a : Level) (drop : BitVec 4) :
    releaseTarget a drop = attSilent ↔ 15 ≤ a.toNat + drop.toNat := by
  rw [← BitVec.toNat_inj, releaseTarget_toNat, silent_toNat]
  omega

/-- A note-on below saturation holds where `DROP` is 0 and decays elsewhere. -/
theorem releaseTarget_of_lt {a : Level} {drop : BitVec 4} (h : a.toNat + drop.toNat < 15) :
    (drop = 0 → a = releaseTarget a drop) ∧ (drop ≠ 0 → a < releaseTarget a drop) := by
  have ht := releaseTarget_toNat a drop
  refine ⟨fun h0 => BitVec.eq_of_toNat_eq ?_, fun h0 => ?_⟩
  · rw [ht, h0]
    exact (Nat.min_eq_right (by omega)).symm
  · have hpos : drop.toNat ≠ 0 := fun e => h0 (BitVec.eq_of_toNat_eq e)
    rw [BitVec.lt_def, ht]
    omega

/-- A released voice: sounding becomes releasing, every other phase stays. -/
theorem released_phase (k : VoiceMask) (v : VoiceIdx) (x : Voice) :
    (released k v x).phase = if maskHas k v ∧ x.phase = .sounding then .releasing else x.phase := by
  by_cases hk : maskHas k v = true
  · by_cases hs : x.phase = .sounding
    · obtain ⟨hatt, -⟩ := (phase_sounding_iff x).mp hs
      rw [if_pos ⟨hk, hs⟩, phase_releasing_iff, released_att, released_tgt, if_pos hk]
      exact ⟨hatt, rfl⟩
    · rw [if_neg (fun h => hs h.2)]
      have hsame : x.att = attSilent ∨ x.tgt = attSilent := by
        by_contra hne
        exact hs ((phase_sounding_iff x).mpr (not_or.mp hne))
      rw [released, if_pos hk, Voice.phase, Voice.phase]
      rcases hsame with hatt | htgt
      · rw [if_pos hatt, if_pos hatt]
      · rw [htgt]
  · rw [if_neg (fun h => hk h.1), released, if_neg hk]

/-- Settles O32: the registers after each command are those of `commandVoice`, and the phase is a function of
them. -/
theorem commandsEnterTheirPhase : Obligations.CommandsEnterTheirPhase := by
  refine ⟨fun s v a n => ?note, fun s side m a ty => ?noise, fun s k v => ?off⟩
  case note =>
    obtain ⟨t, hexec, e⟩ := exec_effect (.note v a n) s
    have hv : t.voice v = ⟨a, releaseTarget a s.cfg.drop, s.cfg.toneGate⟩ := (e.voice v).trans (if_pos rfl)
    refine ⟨t, hexec, ?_⟩
    rw [hv, phase_idle_iff, phase_releasing_iff, phase_sounding_iff]
    refine ⟨id, fun hlt hsum => ?sounding, fun hlt hsum => ?releasing⟩
    case sounding =>
      have hne : releaseTarget a s.cfg.drop ≠ attSilent := fun h =>
        absurd ((releaseTarget_eq_silent_iff _ _).mp h) (by omega)
      refine ⟨⟨level_ne_of_lt hlt, hne⟩, ?_⟩
      obtain ⟨hhold, hdecay⟩ := releaseTarget_of_lt hsum
      split
      · next h0 =>
        rw [subPhase_holding_iff, phase_sounding_iff]
        exact ⟨⟨level_ne_of_lt hlt, hne⟩, hhold h0⟩
      · next h0 =>
        rw [subPhase_decaying_iff, phase_sounding_iff]
        exact ⟨⟨level_ne_of_lt hlt, hne⟩, hdecay h0⟩
    case releasing => exact ⟨level_ne_of_lt hlt, (releaseTarget_eq_silent_iff _ _).mpr hsum⟩
  case noise =>
    obtain ⟨t, hexec, e⟩ := exec_effect (.noise side m a ty) s
    have hv : t.voice (noiseLane s.cfg side) = ⟨a, attSilent, m⟩ := (e.voice _).trans (if_pos rfl)
    refine ⟨t, hexec, ?_⟩
    rw [hv]
    split
    · next h => exact (phase_idle_iff _).mpr h
    · next h => exact (phase_releasing_iff _).mpr ⟨h, rfl⟩
  case off =>
    obtain ⟨t, hexec, e⟩ := exec_effect (.off k) s
    have hv : t.voice v = released k v (s.voice v) := e.voice v
    exact ⟨t, hexec, by rw [hv, released_phase]⟩

end Sys2Proof.Machine
end

section
/-! PROOF. The four invariants of the machine and that every step keeps them (10_state.md R14, R18, R20, R22, R23;
42_envelope_tick.md R119; 60_exceptions.md R153), and that no step stops from a state whose control registers
agree. -/

namespace Sys2Proof.Machine

/-! ## Level order -/

/-- A release target is never louder than the attack level. -/
theorem le_releaseTarget (a : Level) (drop : BitVec 4) : a ≤ releaseTarget a drop := by
  rw [BitVec.le_def, releaseTarget_toNat]
  omega

/-- A command leaves no voice quieter than its target. -/
theorem commandVoice_ordered (c : Config) (i : Instr) (v : VoiceIdx) {x : Voice} (h : x.att ≤ x.tgt) :
    (commandVoice c i v x).att ≤ (commandVoice c i v x).tgt := by
  have hsilent : ∀ a : Level, a ≤ attSilent := by decide
  cases i with
  | note u a n =>
    rw [commandVoice_note]
    split
    · exact le_releaseTarget a c.drop
    · exact h
  | noise side m a t =>
    rw [commandVoice_noise]
    split
    · exact hsilent a
    · exact h
  | delay d => exact h
  | off k =>
    rw [commandVoice_off, released_att, released_tgt]
    split
    · exact hsilent x.att
    · exact h

theorem ticked_tgt (c : BitVec 3) (x : Voice) : (x.ticked c).tgt = x.tgt := by
  unfold Voice.ticked
  split <;> rfl

theorem ticked_gate (c : BitVec 3) (x : Voice) : (x.ticked c).gate = x.gate := by
  unfold Voice.ticked
  split <;> rfl

/-- A tick that moves a voice raises its level by one, without wrapping: the level is below the target. -/
theorem ticked_att_of_moves {c : BitVec 3} {x : Voice} (h : x.moves c) :
    (x.ticked c).att.toNat = x.att.toNat + 1 := by
  have hatt : (x.ticked c).att = x.att + 1 := by rw [Voice.ticked, if_pos h]
  obtain ⟨hlt, -⟩ := h
  rw [hatt]
  bv_omega

/-- A tick keeps a voice that it does not move. -/
theorem ticked_of_not_moves {c : BitVec 3} {x : Voice} (h : ¬ x.moves c) : x.ticked c = x :=
  if_neg h

/-- A tick raises a voice to its target at most. -/
theorem ticked_ordered (c : BitVec 3) {x : Voice} (h : x.att ≤ x.tgt) : (x.ticked c).att ≤ (x.ticked c).tgt := by
  by_cases hmoves : x.moves c
  · rw [ticked_tgt, BitVec.le_def, ticked_att_of_moves hmoves]
    exact hmoves.1
  · rw [ticked_of_not_moves hmoves]
    exact h

/-- Settles O45: commands by `commandVoice_ordered`, ticks by `ticked_ordered`; a reset and a teardown leave level
and target equal. -/
theorem levelOrderIsKept : Obligations.LevelOrderIsKept := by
  refine step_keeps LevelOrder (fun _ _ h => h) ?reset ?teardown (fun _ _ _ h _ _ => h) ?low (fun _ h _ _ => h)
    (fun _ h _ _ _ => h) ?tick
  case reset =>
    intro s _ v
    simp only [State.att, State.tgt, resetBlock_voice, BitVec.le_refl]
  case teardown =>
    intro s c _ _ _ _ v
    simp only [State.att, State.tgt, teardown_voice, BitVec.le_refl]
  case low =>
    intro s b rest t h _ _ hexec v
    rw [State.att, State.tgt, (effect_of_exec hexec).voice]
    exact commandVoice_ordered _ _ _ (h v)
  case tick =>
    intro s h hen v
    rw [State.att, State.tgt, eventEnvTick_voice hen]
    exact ticked_ordered _ (h v)

/-! ## Latch coherence -/

/-- The device view of a trace with more calls behind it. -/
theorem devAtt_append_calls (out calls : List Call) (v : VoiceIdx) :
    devAtt (out ++ calls) v = calls.foldl (devAttAfter v) (devAtt out v) :=
  List.foldl_append

/-- A strike tells the device the level of its voice and of no other. -/
theorem devAtt_append_strike (out : List Call) (u v : VoiceIdx) (sound : Call) (a : Level)
    (hsound : ∀ before, devAttAfter v before sound = before) :
    devAtt (out ++ [sound, .setAttenuation u a]) v = if v = u then some a else devAtt out v := by
  rw [devAtt_append_calls, List.foldl_cons, List.foldl_cons, List.foldl_nil, hsound, devAttAfter]
  simp only [eq_comm]

/-- One attenuation call for each voice of a list tells the device the levels of those voices. -/
theorem devAtt_append_levels (out : List Call) (l : List VoiceIdx) (level : VoiceIdx → Level) (v : VoiceIdx) :
    devAtt (out ++ l.map (fun u => .setAttenuation u (level u))) v =
      if v ∈ l then some (level v) else devAtt out v := by
  induction l generalizing out with
  | nil => simp
  | cons u l ih =>
    rw [List.map_cons, List.append_cons, ih, devAtt_append, devAttAfter]
    by_cases hl : v ∈ l
    · simp [hl]
    · by_cases hu : u = v
      · simp [hu]
      · simp [hl, hu, Ne.symm hu]

/-- The calls of a command tell the device what the command makes of the latch. -/
theorem devAtt_append_command {out : List Call} {x : Voice} (c : Config) (i : Instr) (v : VoiceIdx)
    (h : devAtt out v = some x.att) :
    devAtt (out ++ commandCalls c i) v = some (commandVoice c i v x).att := by
  cases i with
  | note u a n =>
    rw [commandCalls, devAtt_append_strike _ _ _ _ _ (fun _ => rfl), h, commandVoice_note]
    split <;> rfl
  | noise side m a t =>
    rw [commandCalls, devAtt_append_strike _ _ _ _ _ (fun _ => rfl), h, commandVoice_noise]
    split <;> rfl
  | delay d =>
    rw [commandCalls, List.append_nil]
    exact h
  | off k =>
    rw [commandCalls, List.append_nil, commandVoice_off, released_att]
    exact h

theorem mem_allVoices (v : VoiceIdx) : v ∈ allVoices := by
  obtain ⟨before, after, hsplit, -, -⟩ := allVoices_split v
  rw [hsplit]
  exact List.mem_append_right _ List.mem_cons_self

/-- The calls of a tick tell the device what the tick makes of the latch. -/
theorem devAtt_eventEnvTick {s : State} (hen : s.tickEn = true) (v : VoiceIdx)
    (h : devAtt s.out v = some (s.att v)) : devAtt (eventEnvTick s).out v = some ((eventEnvTick s).att v) := by
  rw [eventEnvTick_out hen, devAtt_append_levels, h]
  have hmem : v ∈ allVoices.filter (fun u => (s.voice u).moves s.tickCtr) ↔ (s.voice v).moves s.tickCtr := by
    simp [mem_allVoices]
  simp only [State.att, eventEnvTick_voice hen, Voice.ticked, hmem]
  split <;> rfl

/-- After a `silenceAll()` the device was last told silence, for every voice. -/
theorem devAtt_append_silenceAll (out : List Call) (v : VoiceIdx) :
    devAtt (out ++ [.silenceAll]) v = some attSilent :=
  devAtt_append out .silenceAll v

/-- Settles O46: commands by `devAtt_append_command`, ticks by `devAtt_eventEnvTick`; a reset and a teardown end
the trace with the `silenceAll()` that their latches follow. -/
theorem latchCoherenceIsKept : Obligations.LatchCoherenceIsKept := by
  refine step_keeps LatchCoherent (fun _ _ h => h) ?reset ?teardown (fun _ _ _ h _ _ => h) ?low (fun _ h _ _ => h)
    (fun _ h _ _ _ => h) ?tick
  case reset =>
    intro s _ v
    rw [State.att, resetBlock_voice]
    exact devAtt_append_silenceAll [] v
  case teardown =>
    intro s c _ _ _ _ v
    rw [State.att, teardown_voice, teardown_out]
    exact devAtt_append_silenceAll s.out v
  case low =>
    intro s b rest t h _ _ hexec v
    have e := effect_of_exec hexec
    rw [e.out, State.att, e.voice]
    exact devAtt_append_command _ _ v (h v)
  case tick =>
    intro s h hen v
    exact devAtt_eventEnvTick hen v (h v)

/-! ## The control registers -/

/-- A running block (not halted) has its control registers in agreement when its counter agrees with the wait and
its cursor with the framing. -/
theorem controlOk_of_running {s : State} (hrun : s.dstate ≠ .halted) (hdelay : s.delayCtr ≠ 0 ↔ s.dstate = .wait)
    (heven : s.dstate = .fetchHi ∨ s.dstate = .wait → s.pos % 2 = 0) (hodd : s.dstate = .fetchLo → s.pos % 2 = 1)
    (htick : s.tickEn = true) (hcause : s.cause = .none) : ControlOk s where
  delay := hdelay
  even := heven
  odd := hodd
  tick := by rw [htick]; exact ⟨fun h => absurd h (by decide), fun h => absurd h hrun⟩
  cause := ⟨fun _ => hrun, fun _ => hcause⟩

/-- In a running block the tick is enabled and no cause is recorded. -/
theorem ControlOk.running {s : State} (h : ControlOk s) (hrun : s.dstate ≠ .halted) :
    s.tickEn = true ∧ s.cause = .none :=
  ⟨Bool.eq_true_of_not_eq_false (mt h.tick.mp hrun), h.cause.mpr hrun⟩

/-- Outside a wait the delay counter is 0. -/
theorem ControlOk.delay_zero {s : State} (h : ControlOk s) (hw : s.dstate ≠ .wait) : s.delayCtr = 0 := by
  by_contra h0
  exact hw (h.delay.mp h0)

@[simp] theorem resetBlock_dstate (s : State) : s.resetBlock.dstate = .fetchHi := rfl
@[simp] theorem resetBlock_delayCtr (s : State) : s.resetBlock.delayCtr = 0 := rfl

/-- A reset block has its control registers in agreement. -/
theorem controlOk_resetBlock (s : State) : ControlOk s.resetBlock :=
  controlOk_of_running (s := s.resetBlock) (by simp) (by simp) (fun _ => rfl) (by simp) rfl rfl

/-- A block torn down with a cause has its control registers in agreement. -/
theorem controlOk_teardown (s : State) {c : Cause} (hc : c ≠ .none) : ControlOk (s.teardown c) where
  delay := by simp
  even := by simp
  odd := by simp
  tick := by simp
  cause := by simp [hc]

/-- A word completed at an odd cursor, whatever its command, leaves the control registers in agreement. -/
theorem controlOk_exec {i : Instr} {s t : State} (h : exec i s = .next t) (hdelay : s.delayCtr = 0)
    (hd : s.dstate = .fetchHi) (hpos : s.pos % 2 = 0) (htick : s.tickEn = true) (hcause : s.cause = .none) :
    ControlOk t := by
  have e := effect_of_exec h
  obtain ⟨htickEn, hcauseEq, hposEq⟩ : t.tickEn = s.tickEn ∧ t.cause = s.cause ∧ t.pos = s.pos := by
    rw [e.frame]
    exact ⟨rfl, rfl, rfl⟩
  have hctr := e.delayCtr
  have hdst := e.dstate
  by_cases h0 : delayOf i = 0
  · rw [if_pos h0, hdelay] at hctr
    rw [if_pos h0, hd] at hdst
    refine controlOk_of_running ?_ ?_ (fun _ => ?_) ?_ (htickEn.trans htick) (hcauseEq.trans hcause)
    · rw [hdst]; decide
    · rw [hdst, hctr]; decide
    · rw [hposEq, hpos]
    · rw [hdst]; intro h; cases h
  · rw [if_neg h0] at hctr hdst
    refine controlOk_of_running ?_ ?_ (fun _ => ?_) ?_ (htickEn.trans htick) (hcauseEq.trans hcause)
    · rw [hdst]; decide
    · rw [hdst, hctr]; exact ⟨fun _ => rfl, fun _ => h0⟩
    · rw [hposEq, hpos]
    · rw [hdst]; intro h; cases h

/-- Settles O47: a word by `controlOk_exec`; each of the other cases of `step_keeps` sets the registers it writes
in agreement with those it leaves. -/
theorem controlStateIsKept : Obligations.ControlStateIsKept := by
  refine step_keeps ControlOk (fun _ _ h => ⟨h.delay, h.even, h.odd, h.tick, h.cause⟩)
    (fun s _ => controlOk_resetBlock s) (fun s _ hc _ _ _ => controlOk_teardown s hc) ?high ?low ?last ?count ?tick
  case high =>
    intro s b rest h hd _
    have hpos := h.even (.inl hd)
    obtain ⟨htick, hcause⟩ := h.running (by rw [hd]; decide)
    have hdelay := h.delay_zero (by rw [hd]; decide)
    exact controlOk_of_running (by simp) (by simp [hdelay]) (by simp) (fun _ => by simp only []; omega) htick hcause
  case low =>
    intro s b rest t h hd _ hexec
    have hpos := h.odd hd
    obtain ⟨htick, hcause⟩ := h.running (by rw [hd]; decide)
    have hdelay := h.delay_zero (by rw [hd]; decide)
    exact controlOk_exec hexec hdelay rfl (by simp only []; omega) htick hcause
  case last =>
    intro s h hw _
    obtain ⟨htick, hcause⟩ := h.running (by rw [hw]; decide)
    exact controlOk_of_running (by simp) (by simp) (fun _ => h.even (.inr hw)) (by simp) htick hcause
  case count =>
    intro s h hw _ h1
    have hleft : s.delayCtr - 1 ≠ 0 := fun h0 => h1 (sub_eq_zero.mp h0)
    exact ⟨⟨fun _ => hw, fun _ => hleft⟩, h.even, h.odd, h.tick, h.cause⟩
  case tick =>
    intro s h _
    rw [eventEnvTick_frame]
    exact ⟨h.delay, h.even, h.odd, h.tick, h.cause⟩

/-! ## A block that is over -/

/-- A running block meets what holds of a block that is over. -/
theorem haltedSilent_of_running {s : State} (hrun : s.dstate ≠ .halted) : HaltedSilent s :=
  ⟨fun h => absurd h hrun, fun h => absurd h hrun, fun h => absurd h hrun⟩

/-- A teardown leaves the block silent and still. -/
theorem haltedSilent_teardown (s : State) (c : Cause) : HaltedSilent (s.teardown c) where
  silent _ v := by simp only [State.att, State.tgt, teardown_voice, and_self]
  still _ := ⟨teardown_tickEn s c, teardown_delayCtr s c⟩
  last _ := by rw [teardown_out, List.getLast?_concat]

/-- No command halts the block. -/
theorem exec_not_halted {i : Instr} {s t : State} (h : exec i s = .next t) (hd : s.dstate ≠ .halted) :
    t.dstate ≠ .halted := by
  rw [(effect_of_exec h).dstate]
  split
  · exact hd
  · decide

/-- Settles O48: a teardown makes the block silent and still; every other step that moves a register leaves the
block running, and a halted block has no tick. -/
theorem haltedSilenceIsKept : Obligations.HaltedSilenceIsKept := by
  refine step_keeps HaltedSilent (fun _ _ h => ⟨h.silent, h.still, h.last⟩)
    (fun s _ => haltedSilent_of_running (s := s.resetBlock) (by simp))
    (fun s c _ _ _ _ => haltedSilent_teardown s c)
    (fun s b rest _ _ _ => haltedSilent_of_running (by simp)) ?low
    (fun s _ _ _ => haltedSilent_of_running (by simp)) ?count ?tick
  case low =>
    intro s b rest t _ _ _ hexec
    exact haltedSilent_of_running (exec_not_halted hexec (by simp))
  case count =>
    intro s _ hw _ _
    exact haltedSilent_of_running (by simp [hw])
  case tick =>
    intro s h hen
    apply haltedSilent_of_running
    rw [eventEnvTick_dstate]
    intro hd
    obtain ⟨hdis, -⟩ := h.still hd
    rw [hen] at hdis
    cases hdis

/-! ## The reset state -/

/-- Settles O44: after reset every latch and target is silence, the trace is one `silenceAll()`, and the block
runs at a word boundary. -/
theorem resetMeetsTheInvariants : Obligations.ResetMeetsTheInvariants := by
  refine ⟨fun v => ?order, fun v => ?latch, controlOk_resetBlock State.reset,
    haltedSilent_of_running (s := State.reset) (by decide)⟩
  case order => simp only [State.att, State.tgt, voice_reset, BitVec.le_refl]
  case latch =>
    rw [State.att, voice_reset]
    exact devAtt_append_silenceAll [] v

/-! ## Every step completes -/

/-- Every byte event completes: a word runs whatever its command. -/
theorem eventByte_completes (s : State) : ∃ t, eventByte s = .next t := by
  rcases eventByte_cases s with ⟨-, h⟩ | ⟨b, rest, -, -, h⟩ | ⟨b, rest, -, -, h⟩
  · exact ⟨_, h⟩
  · exact ⟨_, h⟩
  · obtain ⟨t, hexec, -⟩ := exec_effect (decodeWord (wordOfBytes s.hi b))
      { s with stream := rest, pos := s.pos + 1, dstate := .fetchHi }
    exact ⟨t, h.trans hexec⟩

/-- A millisecond strobe completes but in a wait with nothing left. -/
theorem eventMsTick_completes {s : State} (h : s.dstate = .wait → s.delayCtr ≠ 0) : ∃ t, eventMsTick s = .next t := by
  unfold eventMsTick
  split
  · next hw =>
    rw [if_neg (h hw)]
    split <;> exact ⟨_, rfl⟩
  · exact ⟨_, rfl⟩

/-- Settles O49: bytes by `eventByte_completes`, millisecond strobes by `eventMsTick_completes`, since a wait has a
count left; the other events complete in every state. -/
theorem everyStepCompletes : Obligations.EveryStepCompletes := by
  intro s hok
  cases he : nextEvent s.schedule with
  | none => exact ⟨s, by simp only [step, he]⟩
  | some served =>
    obtain ⟨e, later⟩ := served
    rw [step_of_event he]
    cases e with
    | reset => exact ⟨_, rfl⟩
    | byte => exact eventByte_completes _
    | eos => exact ⟨_, rfl⟩
    | msTick => exact eventMsTick_completes (s := { s with schedule := later }) hok.delay.mpr
    | envTick => exact ⟨_, rfl⟩
    | stop => exact ⟨_, rfl⟩

end Sys2Proof.Machine
end

section
/-! PROOF. What a step is relative to the state before it, said once (`StepCase`), and the rules of the whole
machine: the stream (20_memory.md R41), the tick counter (42_envelope_tick.md R112), the trace (20_memory.md R47),
the configuration (70_reset_and_hazards.md R163), the levels (10_state.md R11), the tick enable (R22), the causes
(60_exceptions.md R133). -/

namespace Sys2Proof.Machine

/-! ## The cases of a step -/

/-- What a step from `s` that answers `t` did: only use up a part of the schedule, or serve one event that moves a
register, with what it leaves. -/
inductive StepCase (s : State) : State → Prop where
  | idle (later : List Instant) : StepCase s { s with schedule := later }
  | reset (later : List Instant) (served : nextEvent s.schedule = some (.reset, later)) :
      StepCase s (State.resetBlock { s with schedule := later })
  | teardown (e : Event) (later : List Instant) (c : Cause) (served : nextEvent s.schedule = some (e, later))
      (ends : e = .stop ∨ e = .eos) (cause : c ≠ .fTag) : StepCase s (State.teardown { s with schedule := later } c)
  | high (later : List Instant) (b : Byte) (rest : List Byte) (boundary : s.dstate = .fetchHi)
      (taken : s.stream = b :: rest) :
      StepCase s
        { s with schedule := later, stream := rest, pos := s.pos + 1, hi := b, dstate := .fetchLo }
  | low (later : List Instant) (b : Byte) (rest : List Byte) (t : State)
      (served : nextEvent s.schedule = some (.byte, later)) (inside : s.dstate = .fetchLo)
      (taken : s.stream = b :: rest)
      (effect : CommandEffect (decodeWord (wordOfBytes s.hi b))
        { s with schedule := later, stream := rest, pos := s.pos + 1, dstate := .fetchHi } t) : StepCase s t
  | count (later : List Instant) (left : Millis) : StepCase s (s.counting later left)
  | tick (later : List Instant) (served : nextEvent s.schedule = some (.envTick, later)) (enabled : s.tickEn = true) :
      StepCase s (eventEnvTick { s with schedule := later })

/-- A byte event that answers a next state. -/
theorem stepCase_byte {s t : State} {later : List Instant} (he : nextEvent s.schedule = some (.byte, later))
    (h : eventByte { s with schedule := later } = .next t) : StepCase s t := by
  rcases eventByte_cases { s with schedule := later } with ⟨-, h1⟩ | ⟨b, rest, hd, hs, h1⟩ | ⟨b, rest, hd, hs, h1⟩
  · rw [h1] at h
    cases h
    exact .idle later
  · rw [h1] at h
    cases h
    exact .high later b rest hd hs
  · rw [h1] at h
    exact .low later b rest t he hd hs (effect_of_exec h)

/-- An end of stream. -/
theorem stepCase_eos {s : State} {later : List Instant} (he : nextEvent s.schedule = some (.eos, later)) :
    StepCase s (eventEos { s with schedule := later }) := by
  unfold eventEos
  split
  · split
    · exact .teardown .eos later .eos he (.inr rfl) (by decide)
    · exact .teardown .eos later .fTrunc he (.inr rfl) (by decide)
    · exact .idle later
    · exact .idle later
  · exact .idle later

/-- A millisecond strobe that answers a next state. -/
theorem stepCase_msTick {s t : State} {later : List Instant} (he : nextEvent s.schedule = some (.msTick, later))
    (h : step s = .next t) : StepCase s t := by
  by_cases hw : s.dstate = .wait
  · by_cases h0 : s.delayCtr = 0
    · have hfault : step s = .fault .delayUnderflow := by
        rw [step_of_event he]
        exact (if_pos hw).trans (if_pos h0)
      rw [hfault] at h
      cases h
    · rw [step_msTick_wait he hw h0] at h
      cases h
      exact .count later _
  · rw [step_msTick_outside_wait he hw] at h
    cases h
    exact .idle later

/-- An envelope strobe. -/
theorem stepCase_envTick {s : State} {later : List Instant} (he : nextEvent s.schedule = some (.envTick, later)) :
    StepCase s (eventEnvTick { s with schedule := later }) := by
  by_cases hen : s.tickEn = true
  · exact .tick later he hen
  · rw [eventEnvTick_disabled (s := { s with schedule := later }) (Bool.eq_false_iff.mpr hen)]
    exact .idle later

/-- A stop. -/
theorem stepCase_stop {s : State} {later : List Instant} (he : nextEvent s.schedule = some (.stop, later)) :
    StepCase s (eventStop { s with schedule := later }) := by
  unfold eventStop
  split
  · exact .idle later
  · exact .teardown .stop later .stop he (.inl rfl) (by decide)

/-- Every step that answers a next state is one of the cases. -/
theorem stepCase_of_step {s t : State} (h : step s = .next t) : StepCase s t := by
  rcases step_next_cases h with ⟨-, rfl⟩ | ⟨e, later, he, happly⟩
  · exact .idle t.schedule
  · cases e with
    | reset => cases happly; exact .reset later he
    | byte => exact stepCase_byte he happly
    | eos => cases happly; exact stepCase_eos he
    | msTick => exact stepCase_msTick he h
    | envTick => cases happly; exact stepCase_envTick he
    | stop => cases happly; exact stepCase_stop he

/-! ## The stream and the cursor -/

/-- Settles O14: only a reset and a byte taken move the cursor; the low byte's command moves neither. -/
theorem streamIsConsumedInOrder : Obligations.StreamIsConsumedInOrder := by
  intro s t h
  cases stepCase_of_step h with
  | idle later => exact .inl ⟨rfl, rfl⟩
  | reset later served => exact .inr (.inl ⟨rfl, rfl, later, served⟩)
  | teardown e later c served ends cause => exact .inl ⟨rfl, rfl⟩
  | high later b rest boundary taken =>
    exact .inr (.inr ⟨(inReady_iff s).mpr (.inl boundary), b, taken, rfl⟩)
  | low later b rest _ served inside taken effect =>
    rw [effect.frame]
    exact .inr (.inr ⟨(inReady_iff s).mpr (.inr inside), b, taken, rfl⟩)
  | count later left => exact .inl ⟨rfl, rfl⟩
  | tick later served enabled =>
    rw [eventEnvTick_frame]
    exact .inl ⟨rfl, rfl⟩

/-! ## The trace -/

/-- A command issues at most two calls. -/
theorem commandCalls_length_le (c : Config) (i : Instr) : (commandCalls c i).length ≤ 2 := by
  cases i <;> simp [commandCalls]

/-- A tick issues at most one call a voice. -/
theorem eventEnvTick_calls {s : State} (hen : s.tickEn = true) :
    ∃ calls, (eventEnvTick s).out = s.out ++ calls ∧ calls.length ≤ 8 := by
  refine ⟨_, eventEnvTick_out hen, ?_⟩
  rw [List.length_map]
  exact List.length_filter_le _ allVoices

/-- Settles O50: a teardown adds one call, a command the calls of `commandCalls`, a tick at most one a voice, and
the other cases but the reset none. -/
theorem traceOnlyGrows : Obligations.TraceOnlyGrows := by
  intro s t h hreset
  cases stepCase_of_step h with
  | idle later => exact ⟨[], (List.append_nil _).symm, by decide⟩
  | reset later served => exact absurd served (hreset later)
  | teardown e later c served ends cause => exact ⟨[.silenceAll], rfl, by decide⟩
  | high later b rest boundary taken => exact ⟨[], (List.append_nil _).symm, by decide⟩
  | low later b rest _ served inside taken effect =>
    exact ⟨_, effect.out, Nat.le_trans (commandCalls_length_le _ _) (by decide)⟩
  | count later left => exact ⟨[], (List.append_nil _).symm, by decide⟩
  | tick later served enabled => exact eventEnvTick_calls (s := { s with schedule := later }) enabled

/-! ## The configuration -/

/-- Settles O51: no case of a step writes the configuration. -/
theorem configurationNeverChanges : Obligations.ConfigurationNeverChanges := by
  intro s t h
  cases stepCase_of_step h with
  | idle later => rfl
  | reset later served => rfl
  | teardown e later c served ends cause => rfl
  | high later b rest boundary taken => rfl
  | low later b rest _ served inside taken effect => rw [effect.frame]
  | count later left => rfl
  | tick later served enabled => rw [eventEnvTick_frame]

/-! ## The levels -/

/-- A command changes the level of the voices it strikes only. -/
theorem commandVoice_att_of_not_struck {c : Config} {i : Instr} {v : VoiceIdx} (h : strikesVoice c i v = false)
    (x : Voice) : (commandVoice c i v x).att = x.att := by
  cases i with
  | note u a n => rw [commandVoice_note, if_neg (Ne.symm (of_decide_eq_false h))]
  | noise side m a t => rw [commandVoice_noise, if_neg (Ne.symm (of_decide_eq_false h))]
  | delay d => rfl
  | off k => exact released_att k v x

/-- A tick that changes a level raises it by one, from below the target. -/
theorem ticked_att_ne {c : BitVec 3} {x : Voice} (h : (x.ticked c).att ≠ x.att) :
    x.att < x.tgt ∧ (x.ticked c).att.toNat = x.att.toNat + 1 := by
  by_cases hmoves : x.moves c
  · exact ⟨hmoves.1, ticked_att_of_moves hmoves⟩
  · exact absurd (congrArg Voice.att (ticked_of_not_moves hmoves)) h

/-- Settles O52: of the cases of a step a reset, a teardown, a tick (`ticked_att_ne`) and a word
(`commandVoice_att_of_not_struck`) write levels. -/
theorem levelsMoveOnlyByTheirEvents : Obligations.LevelsMoveOnlyByTheirEvents := by
  intro s t v h hne
  cases stepCase_of_step h with
  | idle later => exact absurd rfl hne
  | reset later served => exact ⟨.reset, later, served, .inl rfl⟩
  | teardown e later c served ends cause =>
    refine ⟨e, later, served, .inr (.inl ⟨ends, teardown_dstate _ c, ?_⟩)⟩
    rw [State.att, teardown_voice]
  | high later b rest boundary taken => exact absurd rfl hne
  | low later b rest _ served inside taken effect =>
    refine ⟨.byte, later, served, .inr (.inr (.inr ⟨rfl, inside, b, rest, taken, ?_⟩))⟩
    by_contra hnot
    apply hne
    rw [State.att, effect.voice]
    exact commandVoice_att_of_not_struck (Bool.eq_false_iff.mpr hnot) _
  | count later left => exact absurd rfl hne
  | tick later served enabled =>
    have hv := eventEnvTick_voice (s := { s with schedule := later }) enabled v
    rw [State.att, hv] at hne
    obtain ⟨hlt, hup⟩ := ticked_att_ne hne
    refine ⟨.envTick, later, served, .inr (.inr (.inl ⟨rfl, enabled, hlt, ?_⟩))⟩
    rw [State.att, hv]
    exact hup

/-! ## The tick enable and the causes -/

/-- Settles O53: a teardown is the one case that disables the tick, a reset the one that enables it. -/
theorem onlyTeardownStopsTheTick : Obligations.OnlyTeardownStopsTheTick := by
  intro s t h
  have same : t.tickEn = s.tickEn →
      (s.tickEn = true → t.tickEn = false → t.dstate = .halted ∧ t.out.getLast? = some .silenceAll) ∧
      (s.tickEn = false → t.tickEn = true → ∃ later, nextEvent s.schedule = some (.reset, later)) := by
    intro hsame
    rw [hsame]
    exact ⟨fun h1 h2 => absurd (h1.symm.trans h2) (by decide), fun h1 h2 => absurd (h1.symm.trans h2) (by decide)⟩
  cases stepCase_of_step h with
  | idle later => exact same rfl
  | reset later served => exact ⟨fun _ hdis => (by cases hdis), fun _ _ => ⟨later, served⟩⟩
  | teardown e later c served ends cause =>
    refine ⟨fun _ _ => ⟨teardown_dstate _ c, ?_⟩, fun _ hen => absurd hen (by rw [teardown_tickEn]; decide)⟩
    rw [teardown_out, List.getLast?_concat]
  | high later b rest boundary taken => exact same rfl
  | low later b rest _ served inside taken effect => exact same (by rw [effect.frame])
  | count later left => exact same rfl
  | tick later served enabled => exact same (by rw [eventEnvTick_frame])

/-- Settles O54: a teardown records a cause but never `F_TAG`, a reset records none, and no other case writes the
cause. -/
theorem tagFaultIsNeverRaised : Obligations.TagFaultIsNeverRaised := by
  intro s t h hs
  cases stepCase_of_step h with
  | idle later => exact hs
  | reset later served => exact fun htag => by cases htag
  | teardown e later c served ends cause => exact cause
  | high later b rest boundary taken => exact hs
  | low later b rest _ served inside taken effect => rw [effect.frame]; exact hs
  | count later left => exact hs
  | tick later served enabled => rw [eventEnvTick_frame]; exact hs

/-! ## Events that take nothing and events that end the run -/

/-- Settles O13: no byte is taken where the decoder is not ready or the source holds none
(`nextByte_eq_none`). -/
theorem offeredByteIsNotTakenWhileNotReady : Obligations.OfferedByteIsNotTakenWhileNotReady := by
  intro s later he hcases
  have hnone : State.nextByte { s with schedule := later } = none := by
    rw [nextByte_eq_none]
    rcases hcases with hd | hd | hs
    · exact .inl (by simp [State.inReady, hd])
    · exact .inl (by simp [State.inReady, hd])
    · exact .inr hs
  rw [step_of_event he]
  simp only [applyEvent, eventByte, hnone]

/-- Settles O23: the strobe's own guard. -/
theorem zeroCounterInWaitStops : Obligations.ZeroCounterInWaitStops := by
  intro s later he hw h0
  rw [step_of_event he]
  exact (if_pos hw).trans (if_pos h0)

/-- An end of stream where a byte is left, in a wait and in `HALTED` does nothing (60_exceptions.md R137). -/
theorem eventEos_ignored {s : State} (h : s.stream ≠ [] ∨ s.dstate = .wait ∨ s.dstate = .halted) :
    eventEos s = s := by
  rcases h with hs | hd | hd
  · exact if_neg hs
  · simp only [eventEos, hd, ite_self]
  · exact eventEos_halted hd

/-- Settles O36: an end of stream in each decoder state. -/
theorem endOfStreamEndsTheRun : Obligations.EndOfStreamEndsTheRun := by
  intro s later he
  have hstep : step s = .next (eventEos { s with schedule := later }) := step_of_event he
  refine ⟨fun hs hd => ?boundary, fun hs hd => ?inside, fun h => ?ignored⟩
  case boundary => simp only [hstep, eventEos, if_pos hs, hd]
  case inside => simp only [hstep, eventEos, if_pos hs, hd, State.raiseDecodeFault, FaultCode.cause]
  case ignored => rw [hstep, eventEos_ignored (s := { s with schedule := later }) h]

/-! ## Arbitration -/

/-- A reset among the events of the next instant is served and the instant is over (60_exceptions.md R139). -/
theorem nextEvent_of_mem_reset {due : Instant} (later : List Instant) (h : Event.reset ∈ due) :
    nextEvent (due :: later) = some (.reset, later) := by
  match due, h with
  | [e], h => rw [← List.mem_singleton.mp h, nextEvent_single]
  | e :: e' :: es, h => exact if_pos h

/-- Settles O38: a reset wins by `nextEvent_of_mem_reset`; without one the first event is served. -/
theorem resetWinsItsInstant : Obligations.ResetWinsItsInstant := by
  refine fun s later => ⟨fun due hs hmem => ?wins, fun e e' es hs hnone => ?first⟩
  case wins => exact step_reset (by rw [hs, nextEvent_of_mem_reset later hmem])
  case first =>
    have he : nextEvent s.schedule = some (e, (e' :: es) :: later) := by
      rw [hs]
      exact if_neg hnone
    exact step_of_event he

/-- Settles O40: by the definition of a step. -/
theorem noEventNoChange : Obligations.NoEventNoChange := by
  intro s hn
  simp only [step, hn]

/-- Settles O42: a run of a halted block with its tick stopped only uses up the schedule (`run_halted`). -/
theorem haltedStaysUntilReset : Obligations.HaltedStaysUntilReset := by
  intro k s hd ht hs
  obtain ⟨later, hrun⟩ := run_halted k hd ht hs
  exact ⟨_, hrun, rfl⟩

/-! ## The output port -/

/-- Settles O56: the transfer of each call; a level or a noise type zero-extended is its number in 10 bits. -/
theorem portTransfers : Obligations.PortTransfers := fun v _ a ty =>
  ⟨rfl, congrArg (Transfer.mk 1 v) (BitVec.ofNat_toNat 10 a).symm,
    congrArg (Transfer.mk 2 v) (BitVec.ofNat_toNat 10 ty).symm, rfl⟩

end Sys2Proof.Machine
end

section
/-! PROOF. Runs of envelope ticks (42_envelope_tick.md R112, R118) and what a tick makes of a voice's phase (R117). -/

namespace Sys2Proof.Machine

/-! ## Counting open ticks -/

@[simp] theorem openTicks_zero (c : BitVec 3) (g : GateMask) : openTicks 0 c g = 0 := rfl

/-- One phase on and then `j` more, as phases on from the start. -/
theorem phase_succ (c : BitVec 3) (j : Nat) : c + 1 + BitVec.ofNat 3 j = c + BitVec.ofNat 3 (j + 1) := by
  rw [BitVec.ofNat_add, BitVec.add_assoc, BitVec.add_comm (1 : BitVec 3)]
  rfl

/-- The open ticks of a run are those of its first part and those of the rest. -/
theorem openTicks_add (j k : Nat) (c : BitVec 3) (g : GateMask) :
    openTicks (j + k) c g = openTicks j c g + openTicks k (c + BitVec.ofNat 3 j) g := by
  induction j generalizing c with
  | zero => rw [Nat.zero_add, openTicks_zero, Nat.zero_add, BitVec.add_zero]
  | succ j ih => rw [Nat.succ_add, openTicks_succ, openTicks_succ, ih, phase_succ, Nat.add_assoc]

/-- Settles O30: the last eight of the ticks hold `2^(3 - popcount)` open ones, whatever phase they start in
(`openTicks_eight`). -/
theorem eightTicksHoldTheirOpenPhases : Obligations.EightTicksHoldTheirOpenPhases := by
  intro k c g
  rw [openTicks_add, openTicks_eight]

/-- Every eight ticks hold at least one open tick. -/
theorem le_openTicks {n k : Nat} (h : 8 * n ≤ k) (c : BitVec 3) (g : GateMask) : n ≤ openTicks k c g := by
  induction n generalizing k with
  | zero => exact Nat.zero_le _
  | succ n ih =>
    obtain ⟨k', rfl⟩ : ∃ k', k = k' + 8 := ⟨k - 8, by omega⟩
    rw [openTicks_add, openTicks_eight]
    exact Nat.add_le_add (ih (by omega)) Nat.one_le_two_pow

/-! ## A run of ticks -/

/-- A tick leaves the tick enable (42_envelope_tick.md R110). -/
theorem eventEnvTick_tickEn (s : State) : (eventEnvTick s).tickEn = s.tickEn := by
  rw [eventEnvTick_frame]

/-- A tick reads nothing of the schedule (42_envelope_tick.md R110). -/
theorem eventEnvTick_withSchedule (later : List Instant) (s : State) :
    eventEnvTick { s with schedule := later } = { eventEnvTick s with schedule := later } := by
  have h := eventEnvTick_withControl later s.delayCtr s.dstate s
  refine h.trans ?_
  rw [eventEnvTick_frame s]
  rfl

theorem ticks_withSchedule (k : Nat) (later : List Instant) (s : State) :
    eventEnvTick^[k] { s with schedule := later } = { eventEnvTick^[k] s with schedule := later } := by
  induction k generalizing s with
  | zero => rfl
  | succ k ih => rw [Function.iterate_succ_apply, eventEnvTick_withSchedule, ih, Function.iterate_succ_apply]

/-- A run of envelope strobes is as many ticks and the rest of the schedule. -/
theorem run_envTicks {k : Nat} {s : State} {later : List Instant} (h : s.schedule = envTicks k ++ later) :
    run k s = .next { eventEnvTick^[k] s with schedule := later } := by
  induction k generalizing s with
  | zero =>
    obtain rfl : s.schedule = later := h
    rfl
  | succ k ih =>
    have hserved : nextEvent s.schedule = some (.envTick, envTicks k ++ later) := by
      rw [h]
      rfl
    have hstep : step s = .next { eventEnvTick s with schedule := envTicks k ++ later } := by
      rw [step_envTick hserved, eventEnvTick_withSchedule]
    rw [run_succ hstep, ih rfl, ticks_withSchedule, Function.iterate_succ_apply]

/-- Ticks write nothing but the register file, the trace and the counter. -/
theorem ticks_frame (k : Nat) (s : State) :
    eventEnvTick^[k] s = { s with
      voices := (eventEnvTick^[k] s).voices, out := (eventEnvTick^[k] s).out,
      tickCtr := (eventEnvTick^[k] s).tickCtr } := by
  refine Function.Iterate.rec (fun t : State => t = { s with voices := t.voices, out := t.out, tickCtr := t.tickCtr })
    rfl (fun t ht => ?_) k
  rw [eventEnvTick_frame t]
  rw [ht]

/-- The counter after `k` enabled ticks (42_envelope_tick.md R112). -/
theorem ticks_tickCtr (k : Nat) {s : State} (hen : s.tickEn = true) :
    (eventEnvTick^[k] s).tickCtr.toNat = (s.tickCtr.toNat + k) % 8 := by
  induction k generalizing s with
  | zero => exact (Nat.mod_eq_of_lt s.tickCtr.isLt).symm
  | succ k ih =>
    have hone : (1 : BitVec 3).toNat = 1 := rfl
    rw [Function.iterate_succ_apply, ih ((eventEnvTick_tickEn s).trans hen), eventEnvTick_tickCtr hen,
      BitVec.toNat_add]
    omega

/-- The level of a voice with the registers `x` after `k` ticks that start with the counter at `c`
(42_envelope_tick.md R118). -/
def Voice.levelAfter (k : Nat) (c : BitVec 3) (x : Voice) : Nat :=
  if x.att < x.tgt then min x.tgt.toNat (x.att.toNat + openTicks k c x.gate) else x.att.toNat

/-- The first of the ticks moves the voice by its own gate, and the rest start one phase on. -/
theorem levelAfter_succ (k : Nat) (c : BitVec 3) (x : Voice) :
    x.levelAfter (k + 1) c = (x.ticked c).levelAfter k (c + 1) := by
  unfold Voice.levelAfter
  rw [openTicks_succ, ticked_tgt, ticked_gate]
  by_cases hmoves : x.moves c
  · have hup := ticked_att_of_moves hmoves
    obtain ⟨hlt, hopen⟩ := hmoves
    rw [if_pos hlt, if_pos hopen]
    simp only [BitVec.lt_def, hup] at hlt ⊢
    split <;> omega
  · rw [ticked_of_not_moves hmoves]
    by_cases hlt : x.att < x.tgt
    · rw [if_pos hlt, if_pos hlt, if_neg (fun hopen => hmoves ⟨hlt, hopen⟩), Nat.zero_add]
    · rw [if_neg hlt, if_neg hlt]

/-- Every voice after `k` enabled ticks. -/
theorem ticks_voice (k : Nat) {s : State} (hen : s.tickEn = true) (v : VoiceIdx) :
    ((eventEnvTick^[k] s).att v).toNat = (s.voice v).levelAfter k s.tickCtr ∧
    (eventEnvTick^[k] s).tgt v = s.tgt v ∧ (eventEnvTick^[k] s).gate v = s.gate v := by
  induction k generalizing s with
  | zero =>
    refine ⟨?_, rfl, rfl⟩
    unfold Voice.levelAfter
    split
    · next hlt =>
      rw [BitVec.lt_def] at hlt
      rw [openTicks_zero, Nat.add_zero, Nat.min_eq_right (Nat.le_of_lt hlt)]
      rfl
    · rfl
  | succ k ih =>
    obtain ⟨hatt, htgt, hgate⟩ := ih ((eventEnvTick_tickEn s).trans hen)
    rw [eventEnvTick_voice hen, eventEnvTick_tickCtr hen, ← levelAfter_succ] at hatt
    rw [Function.iterate_succ_apply, hatt, htgt, hgate, State.tgt, State.gate, eventEnvTick_voice hen, ticked_tgt,
      ticked_gate]
    exact ⟨rfl, rfl, rfl⟩

/-- Settles O28: the run is `k` ticks (`run_envTicks`), each of which counts one (`ticks_tickCtr`); of the cases of
a step a reset and an enabled tick write the counter. -/
theorem tickCounterCountsEnabledTicks : Obligations.TickCounterCountsEnabledTicks := by
  refine ⟨fun j s later hen hs => ⟨_, run_envTicks hs, ticks_tickCtr j hen⟩, rfl, fun s t h hne => ?writes⟩
  case writes =>
    cases stepCase_of_step h with
    | idle later => exact absurd rfl hne
    | reset later served => exact ⟨.reset, later, served, .inl rfl⟩
    | teardown e later c served ends cause => exact absurd rfl hne
    | high later b rest boundary taken => exact absurd rfl hne
    | low later b rest _ served inside taken effect => exact absurd (by rw [effect.frame]) hne
    | count later left => exact absurd rfl hne
    | tick later served enabled => exact ⟨.envTick, later, served, .inr ⟨rfl, enabled⟩⟩

/-- Settles O29: the run is `k` ticks (`run_envTicks`), the voices by `ticks_voice`, the rest by `ticks_frame`. -/
theorem envelopeFollowsOpenTicks : Obligations.EnvelopeFollowsOpenTicks := by
  intro k s later hen hs
  refine ⟨_, run_envTicks hs, fun v => ?level, fun v => ?targetGate, ?frame⟩
  case level => exact (ticks_voice k hen v).1
  case targetGate => exact (ticks_voice k hen v).2
  case frame => rw [ticks_frame k s]

/-- Settles O31: `8 * (15 - att)` ticks hold `15 - att` open ones (`le_openTicks`), which bring the voice to its
target. -/
theorem releasedVoiceFallsSilent : Obligations.ReleasedVoiceFallsSilent := by
  intro k s later v hen htgt hk hs
  obtain ⟨t, hrun, hlevel, -, -⟩ := envelopeFollowsOpenTicks k s later hen hs
  refine ⟨t, hrun, BitVec.eq_of_toNat_eq ?_⟩
  have hsilent : (15 : Level).toNat = 15 := rfl
  have hopen := le_openTicks hk s.tickCtr (s.gate v)
  have hatt := hlevel v
  simp only [htgt, BitVec.lt_def, hsilent] at hatt
  rw [hatt, hsilent]
  split <;> omega

/-! ## The phases a tick moves through -/

/-- A closed gate keeps a voice. -/
theorem ticked_of_closed {c : BitVec 3} {x : Voice} (h : gateOpen c x.gate = false) : x.ticked c = x :=
  ticked_of_not_moves (fun hmoves => Bool.eq_false_iff.mp h ((gateOpen_iff c x.gate).mpr hmoves.2))

/-- A voice not below its target is kept. -/
theorem ticked_of_not_lt {c : BitVec 3} {x : Voice} (h : ¬ x.att < x.tgt) : x.ticked c = x :=
  ticked_of_not_moves (fun hmoves => h hmoves.1)

/-- An open gate lets a voice below its target move. -/
theorem moves_of_open {c : BitVec 3} {x : Voice} (hopen : gateOpen c x.gate = true) (hlt : x.att < x.tgt) :
    x.moves c :=
  ⟨hlt, (gateOpen_iff c x.gate).mp hopen⟩

/-- One level up, a decaying voice is holding if at its target and else still decaying. -/
theorem subPhase_raised {x y : Voice} (hup : y.att.toNat = x.att.toNat + 1) (htgt : y.tgt = x.tgt)
    (h : x.subPhase = some .decaying) :
    y.subPhase = some (if x.att.toNat + 1 = x.tgt.toNat then .holding else .decaying) := by
  obtain ⟨hphase, hlt⟩ := (subPhase_decaying_iff x).mp h
  obtain ⟨-, hloud⟩ := (phase_sounding_iff x).mp hphase
  have htop : x.tgt.toNat ≠ 15 := fun e => hloud (BitVec.eq_of_toNat_eq e)
  rw [BitVec.lt_def] at hlt
  have hsounding : y.phase = .sounding := by
    rw [phase_sounding_iff, htgt, ne_eq, ← BitVec.toNat_inj, hup, silent_toNat]
    exact ⟨by omega, hloud⟩
  split
  · next heq =>
    rw [subPhase_holding_iff, ← BitVec.toNat_inj, hup, htgt]
    exact ⟨hsounding, heq⟩
  · next hne =>
    rw [subPhase_decaying_iff, BitVec.lt_def, hup, htgt]
    exact ⟨hsounding, by omega⟩

/-- One level up, a releasing voice is idle if at silence and else still releasing. -/
theorem phase_raised {x y : Voice} (hup : y.att.toNat = x.att.toNat + 1) (htgt : y.tgt = x.tgt)
    (h : x.phase = .releasing) : y.phase = if x.att.toNat + 1 = 15 then .idle else .releasing := by
  obtain ⟨-, hsilent⟩ := (phase_releasing_iff x).mp h
  split
  · next heq =>
    rw [phase_idle_iff, ← BitVec.toNat_inj, hup, silent_toNat]
    exact heq
  · next hne =>
    rw [phase_releasing_iff, htgt, ne_eq, ← BitVec.toNat_inj, hup, silent_toNat]
    exact ⟨hne, hsilent⟩

/-- A releasing voice is below its target. -/
theorem lt_of_releasing {x : Voice} (h : x.phase = .releasing) : x.att < x.tgt := by
  obtain ⟨hatt, htgt⟩ := (phase_releasing_iff x).mp h
  have hne : x.att.toNat ≠ 15 := fun e => hatt (BitVec.eq_of_toNat_eq e)
  rw [htgt, BitVec.lt_def, silent_toNat]
  omega

/-- No voice at silence is below its target. -/
theorem not_lt_of_idle {x : Voice} (h : x.phase = .idle) : ¬ x.att < x.tgt := by
  rw [(phase_idle_iff x).mp h, BitVec.lt_def, silent_toNat]
  omega

/-- Settles O33: an enabled tick makes of each voice what `Voice.ticked` says, row by row of the table. -/
theorem tickMovesThePhase : Obligations.TickMovesThePhase := by
  intro s later v he hen
  have hv : (eventEnvTick { s with schedule := later }).voice v = (s.voice v).ticked s.tickCtr :=
    eventEnvTick_voice (s := { s with schedule := later }) hen v
  refine ⟨_, step_envTick he, ?_⟩
  rw [hv]
  refine ⟨ticked_of_closed, fun h => ?idle, fun h => ?holding, fun hopen h => ?decaying, fun hopen h => ?releasing⟩
  case idle => exact ticked_of_not_lt (not_lt_of_idle h)
  case holding =>
    obtain ⟨-, heq⟩ := (subPhase_holding_iff _).mp h
    exact ticked_of_not_lt (fun hlt => level_ne_of_lt hlt heq)
  case decaying =>
    obtain ⟨-, hlt⟩ := (subPhase_decaying_iff _).mp h
    exact subPhase_raised (ticked_att_of_moves (moves_of_open hopen hlt)) (ticked_tgt _ _) h
  case releasing =>
    exact phase_raised (ticked_att_of_moves (moves_of_open hopen (lt_of_releasing h))) (ticked_tgt _ _) h

end Sys2Proof.Machine
end

section
/-! PROOF. Runs: a wait with any events but a reset and a stop among its strobes (41_command_decoder.md R96, R98), a
stream of commands (R93, R99), delay words one after the other (R101), both orders of one instant
(60_exceptions.md R139). -/

namespace Sys2Proof.Machine

/-! ## A wait and its interruptions -/

/-- An event of a wait that has no effect is only used up. -/
theorem step_ignored_counting {e : Event} (he : e = .byte ∨ e = .eos) (later : List Instant) {d : Millis}
    (h0 : d ≠ 0) (s : State) : step (s.counting ([e] :: later) d) = .next (s.counting later d) := by
  obtain ⟨hbyte, heos, -⟩ := applyEvent_wait (s := s.counting later d) (if_neg h0)
  rw [step_of_event (nextEvent_single e later)]
  rcases he with rfl | rfl
  · exact hbyte
  · exact heos

/-- A millisecond strobe takes one from the count. -/
theorem step_msTick_counting (later : List Instant) {d : Millis} (h0 : d ≠ 0) (s : State) :
    step (s.counting ([.msTick] :: later) d) = .next (s.counting later (d - 1)) :=
  step_msTick_wait (nextEvent_single _ _) (if_neg h0) h0

/-- The events of a wait that is not over after them: the millisecond strobes bring the count from `d` down to
`r`, the envelope strobes do what they do alone, and the others do nothing. -/
theorem run_waiting (es : List Event) (later : List Instant) {r : Millis} (hr : r ≠ 0)
    (hes : ∀ e ∈ es, e ≠ .reset ∧ e ≠ .stop) (d : Millis) (s : State)
    (hd : d.toNat = r.toNat + es.count .msTick) :
    run es.length (s.counting (oneByOne es ++ later) d) =
      .next ((eventEnvTick^[es.count .envTick] s).counting later r) := by
  induction es generalizing d s with
  | nil =>
    obtain rfl : d = r := BitVec.eq_of_toNat_eq hd
    rfl
  | cons e es ih =>
    have hrest : ∀ e ∈ es, e ≠ .reset ∧ e ≠ .stop := fun e he => hes e (List.mem_cons_of_mem _ he)
    have hpos : r.toNat ≠ 0 := fun e => hr (BitVec.eq_of_toNat_eq e)
    have h0 : d ≠ 0 := by
      intro hzero
      have hnone : d.toNat = 0 := congrArg BitVec.toNat hzero
      omega
    obtain ⟨hreset, hstop⟩ := hes e List.mem_cons_self
    have ignored : e = .byte ∨ e = .eos → run (e :: es).length (s.counting (oneByOne (e :: es) ++ later) d) =
        .next ((eventEnvTick^[(e :: es).count .envTick] s).counting later r) := by
      intro he
      have hms : e ≠ .msTick := by rintro rfl; simp at he
      have henv : e ≠ .envTick := by rintro rfl; simp at he
      rw [List.count_cons_of_ne hms] at hd
      rw [List.length_cons, oneByOne_cons, List.cons_append, run_succ (step_ignored_counting he _ h0 s),
        ih hrest _ _ hd, List.count_cons_of_ne henv]
    cases e with
    | reset => exact absurd rfl hreset
    | stop => exact absurd rfl hstop
    | byte => exact ignored (.inl rfl)
    | eos => exact ignored (.inr rfl)
    | msTick =>
      rw [List.count_cons_self] at hd
      have hleft : (d - 1).toNat = r.toNat + es.count .msTick := by rw [toNat_sub_one h0]; omega
      rw [List.length_cons, oneByOne_cons, List.cons_append, run_succ (step_msTick_counting _ h0 s),
        ih hrest _ _ hleft, List.count_cons_of_ne (by decide)]
    | envTick =>
      rw [List.count_cons_of_ne (by decide)] at hd
      have hstep : step (s.counting (oneByOne (.envTick :: es) ++ later) d) =
          .next ((eventEnvTick s).counting (oneByOne es ++ later) d) :=
        step_envTick_counting _ d s
      rw [List.length_cons, run_succ hstep, ih hrest _ _ hd, List.count_cons_self, Function.iterate_succ_apply]

/-- The same events and then the strobe that completes the count. -/
theorem run_waiting_last (es : List Event) (later : List Instant) (hes : ∀ e ∈ es, e ≠ .reset ∧ e ≠ .stop)
    (d : Millis) (s : State) (hd : es.count .msTick + 1 = d.toNat) :
    run (es.length + 1) (s.counting (oneByOne (es ++ [.msTick]) ++ later) d) =
      .next ((eventEnvTick^[es.count .envTick] s).counting later 0) := by
  have hone : (1 : Millis).toNat = 1 := rfl
  have hsplit : oneByOne (es ++ [.msTick]) ++ later = oneByOne es ++ [.msTick] :: later := by
    simp [oneByOne]
  have hrun := run_waiting es ([.msTick] :: later) (r := 1) (by decide) hes d s (by omega)
  have hlast := step_msTick_counting later (d := 1) (by decide) (eventEnvTick^[es.count .envTick] s)
  rw [BitVec.sub_self] at hlast
  rw [hsplit, run_add hrun, run_succ hlast]
  rfl

/-- Settles O24: a wait is a count (`eq_counting_of_wait`) and `DELAY d` starts one (`exec_delay_pos`); the events
run it down by `run_waiting`, and to its end by `run_waiting_last`. -/
theorem waitOutlastsItsInterruptions : Obligations.WaitOutlastsItsInterruptions := by
  intro s es later hes
  obtain ⟨hstream, hpos⟩ := ticks_take_no_byte (es.count .envTick) s
  have ne_zero : ∀ {d : Millis} {m : Nat}, m < d.toNat → d ≠ 0 := by
    rintro d m h rfl
    exact Nat.not_lt_zero m h
  have left_ne_zero : ∀ {d r : Millis} {m : Nat}, m < d.toNat → d.toNat = r.toNat + m → r ≠ 0 := by
    intro d r m hlt hr h0
    rw [left_eq_zero_iff hr] at h0
    omega
  refine ⟨fun hw hlt hsched => ?waits, fun hw hlast hsched => ?returns, fun d hlt hsched => ?delayWaits,
    fun d hlast hsched => ?delayReturns⟩
  case waits =>
    obtain ⟨r, hr⟩ := exists_left (Nat.le_of_lt hlt)
    have hr0 := left_ne_zero hlt hr
    have hs := eq_counting_of_wait hw (ne_zero hlt)
    have hrun := run_waiting es later hr0 hes s.delayCtr s hr
    have halone := ticksAlone_counting (es.count .envTick) s.schedule s.delayCtr s
    rw [← hsched, ← hs] at hrun
    rw [← hs] at halone
    refine ⟨_, _, hrun, halone, if_neg hr0, hstream, hpos, by rw [counting_delayCtr]; omega, ?_⟩
    simp only [State.counting, State.withControl, if_neg hr0, if_neg (ne_zero hlt)]
  case returns =>
    have hs := eq_counting_of_wait hw (ne_zero (Nat.lt_of_succ_le (Nat.le_of_eq hlast)))
    have hrun := run_waiting_last es later hes s.delayCtr s hlast
    have halone := ticksAlone_counting (es.count .envTick) s.schedule s.delayCtr s
    rw [← hsched, ← hs] at hrun
    rw [← hs] at halone
    exact ⟨_, _, hrun, halone, hstream, hpos, rfl⟩
  case delayWaits =>
    obtain ⟨r, hr⟩ := exists_left (Nat.le_of_lt hlt)
    have hr0 := left_ne_zero hlt hr
    have hrun := run_waiting es later hr0 hes d s hr
    rw [← hsched] at hrun
    exact ⟨_, _, exec_delay_pos (ne_zero hlt) s, hrun,
      Bool.eq_false_iff.mpr (mt (counting_inReady _ _ _).mp hr0), hstream, hpos⟩
  case delayReturns =>
    have hrun := run_waiting_last es later hes d s hlast
    rw [← hsched] at hrun
    exact ⟨_, _, exec_delay_pos (ne_zero (Nat.lt_of_succ_le (Nat.le_of_eq hlast))) s, hrun,
      (counting_inReady _ _ _).mpr rfl, hstream, hpos⟩

/-! ## A word and its strobes -/

/-- `s` at a word boundary with another stream, schedule, cursor and held byte: where a word has been taken. -/
def State.afterWord (rest : List Byte) (later : List Instant) (b : Byte) (s : State) : State :=
  { s with stream := rest, schedule := later, pos := s.pos + 2, hi := b, dstate := .fetchHi }

@[simp] theorem afterWord_dstate (rest : List Byte) (later : List Instant) (b : Byte) (s : State) :
    (s.afterWord rest later b).dstate = .fetchHi := rfl
@[simp] theorem afterWord_delayCtr (rest : List Byte) (later : List Instant) (b : Byte) (s : State) :
    (s.afterWord rest later b).delayCtr = s.delayCtr := rfl

/-- Two byte events at a word boundary whose stream begins with the bytes of a command run that command. -/
theorem run_word {i : Instr} {s t : State} {rest : List Byte} {later : List Instant} (hd : s.dstate = .fetchHi)
    (hs : s.stream = encodeBytes i ++ rest) (hsched : s.schedule = [.byte] :: [.byte] :: later)
    (h : exec i (s.afterWord rest later (highByte (encode i))) = .next t) : run 2 s = .next t := by
  have hhigh := highByteIsHeld s ([.byte] :: later) (highByte (encode i)) (lowByte (encode i) :: rest)
    (by rw [hsched]; rfl) hd (by rw [hs, Laws.encodeBytes_append])
  obtain ⟨-, hlow⟩ := stepRunsTheDecodedCommand
    { s with
      schedule := [.byte] :: later, stream := lowByte (encode i) :: rest, pos := s.pos + 1
      hi := highByte (encode i), dstate := .fetchLo }
    later i rest rfl rfl (Laws.decodeAfterEncode i rest)
  rw [run_succ hhigh, run_succ (hlow.trans h), run_zero]

/-- As many millisecond strobes as bring a count from `d` down to `r`. -/
theorem run_msTicks (m : Nat) (later : List Instant) {d r : Millis} (s : State) (hd : d.toNat = r.toNat + m) :
    run m (s.counting (msTicks m ++ later) d) = .next (s.counting later r) := by
  have hstrobes : ∀ e ∈ List.replicate m Event.msTick, e = .msTick ∨ e = .envTick :=
    fun e he => .inl (List.eq_of_mem_replicate he)
  have hschedule : oneByOne (List.replicate m .msTick) = msTicks m := List.map_replicate
  have hticks : (List.replicate m Event.msTick).count .envTick = 0 := by simp [List.count_replicate]
  have hrun := run_counting (List.replicate m .msTick) later (r := r) hstrobes d s
    (by rw [List.count_replicate_self, hd])
  rwa [List.length_replicate, hschedule, hticks, Function.iterate_zero, id] at hrun

/-! ## What commands read and what the decoder moves are apart -/

/-- `s` with everything that taking bytes and counting a delay move put out of sight. -/
def State.sound (s : State) : State :=
  { s with stream := [], schedule := [], pos := 0, hi := 0, dstate := .fetchHi, delayCtr := 0 }

/-- Two states that sound alike differ in what taking bytes and counting a delay move. -/
theorem eq_of_sound {t u : State} (h : t.sound = u.sound) :
    t = { u with
      stream := t.stream, schedule := t.schedule, pos := t.pos, hi := t.hi, dstate := t.dstate
      delayCtr := t.delayCtr } :=
  congrArg (fun x : State => { x with
    stream := t.stream, schedule := t.schedule, pos := t.pos, hi := t.hi, dstate := t.dstate
    delayCtr := t.delayCtr }) h

/-- From states that sound alike a command leaves states that sound alike. -/
theorem CommandEffect.sound {i : Instr} {s s' t t' : State} (e : CommandEffect i s t) (e' : CommandEffect i s' t')
    (h : s.sound = s'.sound) : t.sound = t'.sound := by
  have hcfg : s.cfg = s'.cfg := (congrArg State.cfg h :)
  have hin : ∀ v, s.voice v = s'.voice v := voice_of_voices (congrArg State.voices h :)
  have hvoices : t.voices = t'.voices := voices_ext fun v => by rw [e.voice, e'.voice, hcfg, hin]
  have hout : t.out = t'.out := by
    have houtIn : s.out = s'.out := (congrArg State.out h :)
    rw [e.out, e'.out, hcfg, houtIn]
  calc t.sound = { s.sound with voices := t.voices, out := t.out } := by rw [e.frame]; rfl
    _ = { s'.sound with voices := t'.voices, out := t'.out } := by rw [h, hvoices, hout]
    _ = t'.sound := by rw [e'.frame]; rfl

theorem execAll_cons {i : Instr} {s t : State} (h : exec i s = .next t) (is : List Instr) :
    execAll (i :: is) s = execAll is t := by
  rw [execAll, h]

/-- Commands complete, and from states that sound alike they leave states that sound alike. -/
theorem execAll_sound (is : List Instr) {s s' : State} (h : s.sound = s'.sound) :
    ∃ u u', execAll is s = .next u ∧ execAll is s' = .next u' ∧ u.sound = u'.sound := by
  induction is generalizing s s' with
  | nil => exact ⟨s, s', rfl, rfl, h⟩
  | cons i is ih =>
    obtain ⟨t, ht, e⟩ := exec_effect i s
    obtain ⟨t', ht', e'⟩ := exec_effect i s'
    rw [execAll_cons ht, execAll_cons ht']
    exact ih (e.sound e' h)

/-! ## A stream of commands -/

/-- `t` is where the bytes and strobes of the commands `is`, from `s`, have led: it sounds as `u`, and the decoder
stands at the word boundary behind them. -/
structure AfterCommands (is : List Instr) (s u : State) (rest : List Byte) (later : List Instant) (t : State) :
    Prop where
  sound : t.sound = u.sound
  stream : t.stream = rest
  schedule : t.schedule = later
  pos : t.pos = s.pos + 2 * is.length
  dstate : t.dstate = .fetchHi
  delayCtr : t.delayCtr = if ∀ i ∈ is, delayOf i = 0 then s.delayCtr else 0

/-- The bytes of one command and the strobes its delay asks for take effect as the command. -/
theorem run_command (i : Instr) {s : State} {rest : List Byte} {later : List Instant} (hd : s.dstate = .fetchHi)
    (hs : s.stream = encodeBytes i ++ rest)
    (hsched : s.schedule = [.byte] :: [.byte] :: (msTicks (delayOf i).toNat ++ later)) :
    ∃ t u, run (2 + (delayOf i).toNat) s = .next t ∧ exec i s = .next u ∧ AfterCommands [i] s u rest later t := by
  obtain ⟨u, hu, eu⟩ := exec_effect i s
  obtain ⟨w, hw, ew⟩ :=
    exec_effect i (s.afterWord rest (msTicks (delayOf i).toNat ++ later) (highByte (encode i)))
  have hword := run_word hd hs hsched hw
  have hsound : w.sound = u.sound := ew.sound eu rfl
  obtain ⟨hstream, hschedule, hpos⟩ : w.stream = rest ∧ w.schedule = msTicks (delayOf i).toNat ++ later ∧
      w.pos = s.pos + 2 := by
    rw [ew.frame]
    exact ⟨rfl, rfl, rfl⟩
  have hone : (∀ j ∈ [i], delayOf j = 0) ↔ delayOf i = 0 := List.forall_mem_singleton
  by_cases h0 : delayOf i = 0
  · refine ⟨w, u, ?_, hu, hsound, hstream, ?_, hpos, ?_, ?_⟩
    · rw [h0]
      exact hword
    · rw [hschedule, h0]
      rfl
    · rw [ew.dstate, if_pos h0, afterWord_dstate]
    · rw [ew.delayCtr, if_pos h0, afterWord_delayCtr, if_pos (hone.mpr h0)]
  · have hctr : w.delayCtr = delayOf i := ew.delayCtr.trans (if_neg h0)
    have hwait : w = w.counting (msTicks (delayOf i).toNat ++ later) (delayOf i) := by
      have hcount := eq_counting_of_wait (ew.dstate.trans (if_neg h0)) (by rw [hctr]; exact h0)
      rwa [hschedule, hctr] at hcount
    have hstrobes := run_msTicks (delayOf i).toNat later (d := delayOf i) (r := 0) w (Nat.zero_add _).symm
    rw [← hwait] at hstrobes
    refine ⟨w.counting later 0, u, ?_, hu, hsound, hstream, rfl, hpos, rfl, ?_⟩
    · rw [run_add hword, hstrobes]
    · rw [if_neg (mt hone.mp h0), counting_delayCtr]

theorem commandSteps_cons (i : Instr) (is : List Instr) :
    commandSteps (i :: is) = 2 + (delayOf i).toNat + commandSteps is := by
  simp only [commandSteps, List.length_cons, List.map_cons, List.sum_cons]
  omega

/-- The bytes and strobes of a list of commands take effect as the commands one after the other. -/
theorem run_commands (is : List Instr) {s : State} {rest : List Byte} {later : List Instant}
    (hd : s.dstate = .fetchHi) (hs : s.stream = is.flatMap encodeBytes ++ rest)
    (hsched : s.schedule = commandSchedule is ++ later) :
    ∃ t u, run (commandSteps is) s = .next t ∧ execAll is s = .next u ∧ AfterCommands is s u rest later t := by
  induction is generalizing s with
  | nil => exact ⟨s, s, rfl, rfl, rfl, hs, hsched, rfl, hd, by simp⟩
  | cons i is ih =>
    rw [List.flatMap_cons, List.append_assoc] at hs
    rw [commandSchedule_cons, List.cons_append, List.cons_append, List.append_assoc] at hsched
    obtain ⟨t1, u1, hrun1, hexec1, after1⟩ := run_command i hd hs hsched
    obtain ⟨t, u2, hrun, hexec2, after⟩ := ih after1.dstate after1.stream after1.schedule
    obtain ⟨u2', u, hexec2', hexec, hsound⟩ := execAll_sound is after1.sound
    obtain rfl : u2 = u2' := by
      rw [hexec2] at hexec2'
      cases hexec2'
      rfl
    refine ⟨t, u, ?run, (execAll_cons hexec1 is).trans hexec, after.sound.trans hsound, after.stream,
      after.schedule, ?pos, after.dstate, ?delayCtr⟩
    case run => rw [commandSteps_cons, run_add hrun1, hrun]
    case pos =>
      rw [after.pos, after1.pos, List.length_singleton, List.length_cons]
      omega
    case delayCtr =>
      rw [after.delayCtr, after1.delayCtr]
      simp only [List.forall_mem_singleton, List.forall_mem_cons]
      by_cases hi : delayOf i = 0
      · simp only [hi, true_and, if_true]
      · simp only [hi, false_and, if_false, ite_self]

/-- Settles O21: `run_commands`, read as an equation of states by `eq_of_sound`. -/
theorem streamRunsItsCommandsInOrder : Obligations.StreamRunsItsCommandsInOrder := by
  intro is s rest later hd hs hsched
  obtain ⟨t, u, hrun, hexec, after⟩ := run_commands is hd hs hsched
  refine ⟨t, u, hrun, hexec, ?_⟩
  rw [← after.stream, ← after.schedule, ← after.pos, ← after.dstate, ← after.delayCtr]
  exact eq_of_sound after.sound

/-! ## Delay words -/

/-- Delays one after the other change nothing that sounds. -/
theorem execAll_delays_sound {ds : List Millis} {s u : State} (h : execAll (ds.map Instr.delay) s = .next u) :
    u.sound = s.sound := by
  induction ds generalizing s with
  | nil => cases h; rfl
  | cons d ds ih =>
    obtain ⟨t, ht, e⟩ := exec_effect (.delay d) s
    rw [List.map_cons, execAll_cons ht] at h
    have hvoices : t.voices = s.voices := voices_ext e.voice
    have hout : t.out = s.out := e.out.trans (List.append_nil _)
    calc u.sound = t.sound := ih h
      _ = s.sound := by rw [e.frame, hvoices, hout]; rfl

/-- Delay words, each with the strobes it asks for, leave what sounds and return to the word boundary. -/
theorem run_delays (ds : List Millis) {s : State} {rest : List Byte} {later : List Instant}
    (hd : s.dstate = .fetchHi) (h0 : s.delayCtr = 0)
    (hs : s.stream = (ds.map Instr.delay).flatMap encodeBytes ++ rest)
    (hsched : s.schedule = delaySchedule ds ++ later) :
    ∃ t, run (delaySteps ds) s = .next t ∧
      t = { s with stream := rest, schedule := later, pos := s.pos + 2 * ds.length, hi := t.hi } := by
  obtain ⟨t, u, hrun, hexec, after⟩ := run_commands (ds.map Instr.delay) hd hs hsched
  refine ⟨t, hrun, (eq_of_sound (after.sound.trans (execAll_delays_sound hexec))).trans ?_⟩
  have hctr := after.delayCtr
  rw [h0, ite_self] at hctr
  rw [after.stream, after.schedule, after.pos, after.dstate, hctr, List.length_map, ← hd, ← h0]

/-- Settles O25: all the words by `run_delays`; into the last word by its two bytes (`run_word`) and `m` of its
strobes (`run_msTicks`). -/
theorem delayChunksAddUp : Obligations.DelayChunksAddUp := by
  refine ⟨fun ds s rest later hd h0 hs hsched => run_delays ds hd h0 hs hsched,
    fun ds d m s rest later hd h0 hm hs hsched => ?inside⟩
  case inside =>
    obtain ⟨r, hr⟩ := exists_left (Nat.le_of_lt hm)
    have hd0 : d ≠ 0 := by
      rintro rfl
      exact Nat.not_lt_zero m hm
    have hr0 : r ≠ 0 := fun hzero => absurd ((left_eq_zero_iff hr).mp hzero) (Nat.ne_of_lt hm)
    have hsplit : msTicks d.toNat = msTicks m ++ msTicks r.toNat := by
      rw [hr, Nat.add_comm, msTicks, List.replicate_add]
      rfl
    have hs' : s.stream = (ds.map Instr.delay).flatMap encodeBytes ++ (encodeBytes (.delay d) ++ rest) := by
      simpa using hs
    have hsched' : s.schedule = delaySchedule ds ++
        ([.byte] :: [.byte] :: (msTicks m ++ (msTicks r.toNat ++ later))) := by
      simpa [delaySchedule, commandSchedule, hsplit] using hsched
    obtain ⟨t, hrun, ht⟩ := run_delays ds hd h0 hs' hsched'
    obtain ⟨hdt, hst, hschedt⟩ : t.dstate = .fetchHi ∧ t.stream = encodeBytes (.delay d) ++ rest ∧
        t.schedule = [.byte] :: [.byte] :: (msTicks m ++ (msTicks r.toNat ++ later)) := by
      rw [ht]
      exact ⟨hd, rfl, rfl⟩
    have hword := run_word hdt hst hschedt (exec_delay_pos hd0 _)
    have hstrobes := run_msTicks m (msTicks r.toNat ++ later)
      (t.afterWord rest (msTicks m ++ (msTicks r.toNat ++ later)) (highByte (encode (.delay d)))) hr
    have hall := (run_add (k := 2 + m) hrun).trans ((run_add (k := m) hword).trans hstrobes)
    rw [← Nat.add_assoc] at hall
    exact ⟨_, hall, if_neg hr0, by rw [counting_delayCtr, hr, Nat.add_sub_cancel]⟩

/-! ## Both orders of one instant -/

/-- The block is inside the word `0xC004`, the release of voice 2, its low byte the next of the stream. -/
structure OffTwoPending (s : State) : Prop where
  inside : s.dstate = .fetchLo
  held : s.hi = 0xC0
  low : s.stream = [0x04]

/-- The step that takes the low byte of that word releases voice 2 and moves nothing that a tick reads. -/
theorem step_off_two {s : State} {later : List Instant} (he : nextEvent s.schedule = some (.byte, later))
    (h : OffTwoPending s) :
    ∃ t, step s = .next t ∧ (∀ v, t.voice v = released 0x04 v (s.voice v)) ∧ t.out = s.out ∧
      t.tickCtr = s.tickCtr ∧ t.tickEn = s.tickEn ∧ t.schedule = later := by
  have hdecode : decode (s.hi :: s.stream) = .ok (.off 0x04, []) := by
    rw [h.held, h.low]
    rfl
  obtain ⟨-, hstep⟩ := stepRunsTheDecodedCommand s later (.off 0x04) [] he h.inside hdecode
  obtain ⟨t, hexec, e⟩ := exec_effect (.off 0x04)
    { s with schedule := later, stream := [], pos := s.pos + 1, dstate := .fetchHi }
  refine ⟨t, hstep.trans hexec, e.voice, e.out.trans (List.append_nil _), ?_⟩
  rw [e.frame]
  exact ⟨rfl, rfl, rfl⟩

/-- That release keeps every voice but voice 2. -/
theorem released_two_other {v : VoiceIdx} (hv : v ≠ 2) (x : Voice) : released 0x04 v x = x := by
  have hmask : ∀ v : VoiceIdx, v ≠ 2 → ¬ maskHas 0x04 v = true := by decide
  exact if_neg (hmask v hv)

/-- A voice at its target is moved by no tick. -/
theorem not_moves_of_eq (c : BitVec 3) {x : Voice} (h : x.att = x.tgt) : ¬ x.moves c :=
  fun hmoves => level_ne_of_lt hmoves.1 h

/-- A tick that moves no voice issues no call. -/
theorem movers_none {s : State} (h : ∀ v, ¬ (s.voice v).moves s.tickCtr) :
    allVoices.filter (fun v => (s.voice v).moves s.tickCtr) = [] :=
  List.filter_eq_nil_iff.mpr fun v _ hv => h v (of_decide_eq_true hv)

/-- A tick that moves voice 2 alone. -/
theorem movers_two {s : State} (h2 : (s.voice 2).moves s.tickCtr) (h : ∀ v, v ≠ 2 → ¬ (s.voice v).moves s.tickCtr) :
    allVoices.filter (fun v => (s.voice v).moves s.tickCtr) = [2] := by
  have hmoves : ∀ v, (s.voice v).moves s.tickCtr ↔ v = 2 := fun v =>
    ⟨fun hv => by_contra fun hne => h v hne hv, fun hv => hv ▸ h2⟩
  simp only [hmoves]
  decide

/-- The tick first: it moves no voice, and the release then sets the target. -/
theorem tick_then_release {s : State} (h2 : s.voice 2 = ⟨7, 7, 0⟩) (hothers : ∀ v, v ≠ 2 → s.att v = s.tgt v)
    (hen : s.tickEn = true) (hpending : OffTwoPending s) (hsched : s.schedule = [[.envTick, .byte]]) :
    ∃ t, run 2 s = .next t ∧ t.voice 2 = ⟨7, 15, 0⟩ ∧ t.tickCtr = s.tickCtr + 1 ∧ t.out = s.out := by
  have hstill : ∀ v, ¬ (s.voice v).moves s.tickCtr := by
    intro v
    by_cases hv : v = 2
    · rw [hv, h2]
      exact not_moves_of_eq _ rfl
    · exact not_moves_of_eq _ (hothers v hv)
  have hserved : nextEvent s.schedule = some (.envTick, [[.byte]]) := by
    rw [hsched]
    rfl
  have hstep := step_envTick hserved
  have hframe := eventEnvTick_frame { s with schedule := [[.byte]] }
  have hvoice := eventEnvTick_voice (s := { s with schedule := [[.byte]] }) hen 2
  have hout := eventEnvTick_out (s := { s with schedule := [[.byte]] }) hen
  have hctr := eventEnvTick_tickCtr (s := { s with schedule := [[.byte]] }) hen
  generalize eventEnvTick { s with schedule := [[.byte]] } = u at hstep hframe hvoice hout hctr
  have hnext : nextEvent u.schedule = some (.byte, []) := by
    rw [hframe]
    rfl
  have hupending : OffTwoPending u := by
    rw [hframe]
    exact ⟨hpending.inside, hpending.held, hpending.low⟩
  obtain ⟨t, hlow, htvoice, htout, htctr, -⟩ := step_off_two hnext hupending
  refine ⟨t, by rw [run_succ hstep, run_succ hlow, run_zero], ?voice, htctr.trans hctr, htout.trans ?out⟩
  case voice =>
    have hkept : u.voice 2 = ⟨7, 7, 0⟩ := (hvoice.trans (ticked_of_not_moves (hstill 2))).trans h2
    rw [htvoice, hkept]
    rfl
  case out =>
    refine hout.trans ?_
    rw [movers_none (s := { s with schedule := [[.byte]] }) hstill, List.map_nil, List.append_nil]

/-- The release first: it gives voice 2, and no other, somewhere to rise to, and the open tick then raises it. -/
theorem release_then_tick {s : State} (h2 : s.voice 2 = ⟨7, 7, 0⟩) (hothers : ∀ v, v ≠ 2 → s.att v = s.tgt v)
    (hen : s.tickEn = true) (hpending : OffTwoPending s) (hsched : s.schedule = [[.byte, .envTick]]) :
    ∃ t, run 2 s = .next t ∧ t.voice 2 = ⟨8, 15, 0⟩ ∧ t.tickCtr = s.tickCtr + 1 ∧
      t.out = s.out ++ [.setAttenuation 2 8] := by
  have hserved : nextEvent s.schedule = some (.byte, [[.envTick]]) := by
    rw [hsched]
    rfl
  obtain ⟨u, hlow, huvoice, huout, huctr, huen, husched⟩ := step_off_two hserved hpending
  have hu2 : u.voice 2 = ⟨7, 15, 0⟩ := (huvoice 2).trans (congrArg (released 0x04 2) h2)
  have hmoves : (u.voice 2).moves u.tickCtr := by
    rw [hu2]
    exact ⟨by decide, BitVec.and_zero⟩
  have hstill : ∀ v, v ≠ 2 → ¬ (u.voice v).moves u.tickCtr := by
    intro v hv
    rw [huvoice, released_two_other hv]
    exact not_moves_of_eq _ (hothers v hv)
  have hticked : (u.voice 2).ticked u.tickCtr = ⟨8, 15, 0⟩ := by
    rw [Voice.ticked, if_pos hmoves, hu2]
    rfl
  have hstep : step u = .next (eventEnvTick { u with schedule := [] }) := step_envTick (by rw [husched]; rfl)
  have huen' : u.tickEn = true := huen.trans hen
  refine ⟨_, by rw [run_succ hlow, run_succ hstep, run_zero], ?voice, ?counter, ?out⟩
  case voice => exact (eventEnvTick_voice (s := { u with schedule := [] }) huen' 2).trans hticked
  case counter =>
    exact (eventEnvTick_tickCtr (s := { u with schedule := [] }) huen').trans (congrArg (· + 1) huctr)
  case out =>
    rw [eventEnvTick_out (s := { u with schedule := [] }) huen',
      movers_two (s := { u with schedule := [] }) hmoves hstill]
    exact congrArg₂ (fun out (x : Voice) => out ++ [Call.setAttenuation 2 (x.att + 1)]) huout hu2

/-- Settles O39: `tick_then_release` and `release_then_tick`, the counter going from 5 to 6 in both. -/
theorem bothOrdersOfOneInstant : Obligations.BothOrdersOfOneInstant := by
  intro s h2 hothers hen hctr hd hhi hs
  have hpending : OffTwoPending s := ⟨hd, hhi, hs⟩
  have hsix : s.tickCtr + 1 = 6 := by
    rw [hctr]
    rfl
  refine ⟨fun hsched => ?tickFirst, fun hsched => ?byteFirst⟩
  case tickFirst => simpa only [hsix] using tick_then_release h2 hothers hen hpending hsched
  case byteFirst => simpa only [hsix] using release_then_tick h2 hothers hen hpending hsched

end Sys2Proof.Machine
end

section
/-! PROOF. The frequency table: the reference table is the formula's (40_frequency_lut.md R84), its properties
(R85), and that the formula's fold always ends within the register (R82). -/

namespace Sys2Proof.Machine

/-! ## The reference table -/

/-- Settles O57: the formula evaluated on the 128 notes. -/
theorem referenceTableFollowsTheFormula : Obligations.ReferenceTableFollowsTheFormula := by
  unfold Obligations.ReferenceTableFollowsTheFormula
  decide

/-- Settles O58: the table read entry by entry. -/
theorem referenceTableProperties : Obligations.ReferenceTableProperties := by
  unfold Obligations.ReferenceTableProperties
  decide

/-! ## The twelfth root -/

/-- One bit at a time from the top: the bits found so far never exceed the root, and the bits to come always
reach it. -/
theorem root12_go_spec (q k acc : Nat) (hlow : acc ^ 12 ≤ q) (hhigh : q < (acc + 2 ^ k) ^ 12) :
    root12.go q k acc ^ 12 ≤ q ∧ q < (root12.go q k acc + 1) ^ 12 := by
  induction k generalizing acc with
  | zero => exact ⟨hlow, hhigh⟩
  | succ k ih =>
    unfold root12.go
    split
    · next hbit =>
      refine ih _ hbit ?_
      rwa [Nat.add_assoc, ← Nat.two_mul, ← Nat.pow_succ']
    · next hbit => exact ih _ hlow (Nat.lt_of_not_le hbit)

/-- The root's bits are at most one more than a twelfth of the number's. -/
theorem lt_root12_bound (q : Nat) : q < (2 ^ (Nat.log2 q / 12 + 1)) ^ 12 := by
  rw [← Nat.pow_mul]
  exact Nat.lt_of_lt_of_le Nat.lt_log2_self (Nat.pow_le_pow_right (by decide) (by omega))

/-- `root12 q` is the greatest natural whose twelfth power is at most `q`. -/
theorem le_root12_iff (x q : Nat) : x ≤ root12 q ↔ x ^ 12 ≤ q := by
  obtain ⟨hlow, hhigh⟩ := root12_go_spec q (Nat.log2 q / 12 + 1) 0 (Nat.zero_le q)
    (by rw [Nat.zero_add]; exact lt_root12_bound q)
  constructor
  · intro h
    exact Nat.le_trans (Nat.pow_le_pow_left h 12) hlow
  · intro h
    exact Nat.le_of_lt_succ (lt_of_pow_lt_pow_left₀ 12 (Nat.zero_le _) (Nat.lt_of_le_of_lt h hhigh))

/-! ## The fold -/

/-- The integer part of `2 X` in `Raw(m)` (40_frequency_lut.md R81). -/
def doubled (num den m : Nat) : Nat :=
  root12 ((2 * num) ^ 12 * 2 ^ 69 / ((32 * 440 * den) ^ 12 * 2 ^ m))

/-- The value of `Raw(m)` is half of it, rounded. -/
theorem rawRegister_bounds (num den m : Nat) :
    rawRegister num den m ≤ (doubled num den m + 1) / 2 ∧ (doubled num den m + 1) / 2 ≤ rawRegister num den m + 1 := by
  unfold rawRegister doubled
  dsimp only
  split <;> omega

/-- An octave up at least halves the value. -/
theorem two_mul_doubled_octave_le (num den m : Nat) : 2 * doubled num den (m + 12) ≤ doubled num den m := by
  unfold doubled
  rw [le_root12_iff, Nat.mul_pow, Nat.pow_add, ← Nat.mul_assoc, ← Nat.div_div_eq_div_mul, Nat.mul_comm]
  refine Nat.le_trans (Nat.mul_le_mul_right _ ((le_root12_iff _ _).mp (Nat.le_refl _))) ?_
  exact Nat.div_mul_le_self _ _

/-- The fold ends within the register where its octaves are enough to halve the value to one below it. -/
theorem foldRegister_lt (num den fuel m : Nat) (h : doubled num den m ≤ 2 ^ (fuel + 1)) :
    foldRegister num den fuel m < 1024 := by
  induction fuel generalizing m with
  | zero =>
    obtain ⟨hle, -⟩ := rawRegister_bounds num den m
    rw [foldRegister]
    omega
  | succ fuel ih =>
    rw [foldRegister]
    split
    · next hfits => exact hfits
    · refine ih (m + 12) ?_
      have hhalf := two_mul_doubled_octave_le num den m
      rw [Nat.pow_succ] at h
      omega

/-- Settles O59: the fold of an entry has as many octaves as its unfolded value has bits, which is enough
(`foldRegister_lt`). -/
theorem formulaEntryFitsTheRegister : Obligations.FormulaEntryFitsTheRegister := by
  intro num den n
  obtain ⟨-, hle⟩ := rawRegister_bounds num den n
  have hbits : rawRegister num den n < 2 ^ (Nat.log2 (rawRegister num den n) + 1) := Nat.lt_log2_self
  refine foldRegister_lt num den _ n ?_
  rw [Nat.pow_succ]
  omega

end Sys2Proof.Machine
end
